-- ==== Sys2Proof/Word.lean ====
section
/-! DEFINITION. The widths of the port fields (30_encoding.md R70, R71) as Lean types. -/

namespace Sys2Proof

/-- An 8-bit quantity (00_scope.md R7: "A byte is 8 bits"). -/
abbrev Byte := BitVec 8

/-- A 16-bit port field (`X`, `Y`, `MUL`, `DIV`, `RX`, `RY`). -/
abbrev Half := BitVec 16

/-- A 32-bit port field (`FA`, `FB`, `Z`, `RF`, `RZ`). -/
abbrev Word := BitVec 32

/-- A 64-bit byte vector (`PK`, `RPK`), numbered as 20_memory.md R42 says. -/
abbrev ByteVec := BitVec 64

end Sys2Proof
end

