-- ==== Sys2Proof/Config.lean ====
section
/-! DEFINITION. The implementation parameters of 00_scope.md R6 as one configuration record. Their values
for this hardware stand in Machine/Params.lean. -/

namespace Sys2Proof

/-- `FLOAT_FMT` (R6, D5): the format of every float operand and result. -/
inductive FloatFmt where
  /-- IEEE 754 binary32, the field layout of R82. -/
  | binary32
  deriving DecidableEq, Repr

/-- `NUMERICS` (R6, D6): how a VQ operation computes between its operands and its result. -/
inductive Numerics where
  /-- Exact rational arithmetic, one final rounding. -/
  | exact
  deriving DecidableEq, Repr

/-- `ROUND` (R6, D7): the source's `round`. -/
inductive RoundMode where
  /-- Nearest integer, ties away from zero. -/
  | nearestTiesAway
  deriving DecidableEq, Repr

/-- `TRUNC` (R6, D7): the source's `truncate`. -/
inductive TruncMode where
  | towardZero
  deriving DecidableEq, Repr

/-- `DIVMOD` (R6, D8): the source's "integer division" and "mod"; the second value is the alternative that
R109, U4 and 95_test_vectors.md section 2.3 name. -/
inductive DivMode where
  /-- Quotient toward zero, remainder with the dividend's sign. -/
  | truncating
  /-- Quotient toward minus infinity, remainder with the divisor's sign. -/
  | floor
  deriving DecidableEq, Repr

/-- `SP_CELL_LAYOUT` (R6, R81, D14): the lowest bit of each part of the SP cell word. -/
structure SpCellLayout where
  idLo : Nat
  countLo : Nat
  cell1Lo : Nat
  cell2Lo : Nat
  deriving DecidableEq, Repr

/-- The parameters of R6, under the spec's names. `nCtx`, `scaleBits`, `numerics` and `spPollMark` are
declared and read by no meaning: the one context is `State.ctx`, the width of `MUL` and `DIV` is their
type, exactness is the type `Frac`, and the poll marker is external (R86). `LATENCY` is open and, as R244
asks, not represented (log 8). -/
structure Config where
  dMark : Byte
  dEsc : Byte
  dEscMark : Byte
  dEscEsc : Byte
  spLen : Nat
  spTypeData : Byte
  spEmptyChk : Byte
  spPollMark : Byte
  ckInit : Byte
  ckGood : Byte
  encodeFirst : Nat
  encodeLast : Nat
  verifyFirst : Nat
  verifyLast : Nat
  cellScale : Nat
  cellBits : Nat
  cellIdBits : Nat
  dmsSecNum : Nat
  dmsSecDen : Nat
  floatFmt : FloatFmt
  numerics : Numerics
  round : RoundMode
  trunc : TruncMode
  divMod : DivMode
  scaleBits : Nat
  nCtx : Nat
  spCellLayout : SpCellLayout
  deriving DecidableEq, Repr

end Sys2Proof
end

