-- ==== Sys2Proof/Syntax.lean ====
section
/-! DEFINITION. The request bundle of the port and the 18 operations (30_encoding.md R70, R75). -/

namespace Sys2Proof

/-- One request: the fields of R70, all presented together. -/
structure Request where
  op : Byte
  fa : Word
  fb : Word
  pk : ByteVec
  x : Half
  y : Half
  z : Word
  mul : Half
  div : Half
  k : Byte
  k2 : Byte
  deriving DecidableEq, Repr

/-- A request with every field 0 but the operation code. -/
def Request.blank (op : Byte) : Request := ⟨op, 0, 0, 0, 0, 0, 0, 0, 0, 0, 0⟩

/-- The operations of R75, one constructor per row, in the table's order; the arguments are the request
fields the row reads, whole (a field's ignored bits are ignored by the meaning, U14). -/
inductive Instr where
  /-- `VQ.SPLIT`, R102: `FA` = value, `MUL` = scale. -/
  | vqSplit (fa : Word) (mul : Half)
  /-- `VQ.JOIN`, R105: `X` = before, `Y` = after, `MUL` = scale. -/
  | vqJoin (x : Half) (y : Half) (mul : Half)
  /-- `VQ.DMS`, R108: `X` = bp, `Y` = ap. -/
  | vqDms (x : Half) (y : Half)
  /-- `VQ.QUANT`, R111: `FA` = value, `MUL`/`DIV` = reciprocal scale, `K2` = format. -/
  | vqQuant (fa : Word) (mul : Half) (div : Half) (k2 : Byte)
  /-- `VQ.DEQUANT`, R113: `Z` = raw integer, `MUL`/`DIV`, `K2` = format. -/
  | vqDequant (z : Word) (mul : Half) (div : Half) (k2 : Byte)
  /-- `VQ.CELLD`, R115: `K` = id, `FA` = volts. -/
  | vqCellD (k : Byte) (fa : Word)
  /-- `VQ.CELLSP`, R118: `K` = id, `K2` = count, `FA`, `FB` = the two voltages. -/
  | vqCellSp (k : Byte) (k2 : Byte) (fa : Word) (fb : Word)
  /-- `DF.ENCODE`, R132: `K` = id, `X` = value. -/
  | dfEncode (k : Byte) (x : Half)
  /-- `DF.FEED`, R134: `K` = the received byte. -/
  | dfFeed (k : Byte)
  /-- `DF.RESET`, R140. -/
  | dfReset
  /-- `DF.GETSTATE`, R141. -/
  | dfGetState
  /-- `DF.SETSTATE`, R142: `Z` = token. -/
  | dfSetState (z : Word)
  /-- `CK.SUM`, R162: `PK` = bytes, `K` = how many are folded. -/
  | ckSum (pk : ByteVec) (k : Byte)
  /-- `CK.VERIFY`, R164: `PK` = packet. -/
  | ckVerify (pk : ByteVec)
  /-- `SP.ENCODE`, R176: `K` = type, `Y` = id, `Z` = value. -/
  | spEncode (k : Byte) (y : Half) (z : Word)
  /-- `SP.ENCODE10`, R177: `Y` = id, `Z` = value. -/
  | spEncode10 (y : Half) (z : Word)
  /-- `SP.EMPTY`, R178. -/
  | spEmpty
  /-- `SP.DECODE`, R179: `PK` = packet. -/
  | spDecode (pk : ByteVec)
  deriving DecidableEq, Repr

end Sys2Proof
end

