-- ==== Sys2Proof/WellFormed.lean ====
section
/-! DEFINITION. Which requests carry a defined operation, and which instructions carry no reserved operand
encoding. Neither is a premise of any meaning: a reserved code or operand still gets the answer the spec
defines for it (U12, U13). -/

namespace Sys2Proof

/-- The defined operation codes of R75, in the table's order. -/
def definedOps : List Byte :=
  [0x00, 0x01, 0x02, 0x03, 0x04, 0x05, 0x06, 0x10, 0x11, 0x12, 0x13, 0x14, 0x20, 0x21, 0x30, 0x31, 0x32, 0x33]

/-- The predicate of U12: the request's `OP` is one of the 18 defined codes. -/
def Request.wellFormed (r : Request) : Bool := definedOps.contains r.op

/-- The width selector `K2[1:0]` is not the reserved value 3 (R79). -/
def formatDefined (k2 : Byte) : Bool := k2.extractLsb' 0 2 != 3#2

/-- The state code `Z[2:0]` of a token is one of 0..5 (R78). -/
def tokenStateDefined (z : Word) : Bool := decide ((z.extractLsb' 0 3).toNat ≤ 5)

/-- The byte count of `CK.SUM` is one the port can carry, 0..8 (R162). -/
def sumLengthDefined (k : Byte) : Bool := decide (k.toNat ≤ 8)

/-- No operand holds an encoding that U13 lists as reserved. -/
def Instr.wellFormed : Instr → Bool
  | .vqQuant _ _ _ k2 => formatDefined k2
  | .vqDequant _ _ _ k2 => formatDefined k2
  | .dfSetState z => tokenStateDefined z
  | .ckSum _ k => sumLengthDefined k
  | .vqSplit _ _ => true
  | .vqJoin _ _ _ => true
  | .vqDms _ _ => true
  | .vqCellD _ _ => true
  | .vqCellSp _ _ _ _ => true
  | .dfEncode _ _ => true
  | .dfFeed _ => true
  | .dfReset => true
  | .dfGetState => true
  | .ckVerify _ => true
  | .spEncode _ _ _ => true
  | .spEncode10 _ _ => true
  | .spEmpty => true
  | .spDecode _ => true

end Sys2Proof
end

