-- ==== Sys2Proof/Decode.lean ====
section
/-! DEFINITION. From a request to an operation and back (30_encoding.md R70, R72, R74 to R76), and the
request as one 248-bit word. -/

namespace Sys2Proof

/-- The request fields side by side in R70's order, `OP` in bits 7..0. The spec gives the fields no places
in one word: DESIGN CHOICE (log 4). -/
def Request.toWord (r : Request) : BitVec 248 :=
  r.k2 ++ r.k ++ r.div ++ r.mul ++ r.z ++ r.y ++ r.x ++ r.pk ++ r.fb ++ r.fa ++ r.op

/-- The request a 248-bit word stands for, the inverse of `Request.toWord` (log 4). -/
def Request.ofWord (w : BitVec 248) : Request where
  op := w.extractLsb' 0 8
  fa := w.extractLsb' 8 32
  fb := w.extractLsb' 40 32
  pk := w.extractLsb' 72 64
  x := w.extractLsb' 136 16
  y := w.extractLsb' 152 16
  z := w.extractLsb' 168 32
  mul := w.extractLsb' 200 16
  div := w.extractLsb' 216 16
  k := w.extractLsb' 232 8
  k2 := w.extractLsb' 240 8

/-- What a request asks for: one of the 18 operations, or a reserved code (R76), which is kept by name. -/
inductive Decoded where
  | instr (i : Instr)
  | reserved (op : Byte)
  deriving DecidableEq, Repr

/-- The operation-code map R75: all 8 bits of `OP` are decoded (R74), and the fields a row does not read
are ignored (R72). -/
def decode (r : Request) : Decoded :=
  match r.op.toNat with
  | 0x00 => .instr (.vqSplit r.fa r.mul)
  | 0x01 => .instr (.vqJoin r.x r.y r.mul)
  | 0x02 => .instr (.vqDms r.x r.y)
  | 0x03 => .instr (.vqQuant r.fa r.mul r.div r.k2)
  | 0x04 => .instr (.vqDequant r.z r.mul r.div r.k2)
  | 0x05 => .instr (.vqCellD r.k r.fa)
  | 0x06 => .instr (.vqCellSp r.k r.k2 r.fa r.fb)
  | 0x10 => .instr (.dfEncode r.k r.x)
  | 0x11 => .instr (.dfFeed r.k)
  | 0x12 => .instr .dfReset
  | 0x13 => .instr .dfGetState
  | 0x14 => .instr (.dfSetState r.z)
  | 0x20 => .instr (.ckSum r.pk r.k)
  | 0x21 => .instr (.ckVerify r.pk)
  | 0x30 => .instr (.spEncode r.k r.y r.z)
  | 0x31 => .instr (.spEncode10 r.y r.z)
  | 0x32 => .instr .spEmpty
  | 0x33 => .instr (.spDecode r.pk)
  | _ => .reserved r.op

/-- The operation in a 248-bit request word. -/
def decodeWord (w : BitVec 248) : Decoded := decode (Request.ofWord w)

/-- The request that asks for an operation, its unread fields 0 (they may hold anything, R72). -/
def encode : Instr → Request
  | .vqSplit fa mul => { Request.blank 0x00 with fa := fa, mul := mul }
  | .vqJoin x y mul => { Request.blank 0x01 with x := x, y := y, mul := mul }
  | .vqDms x y => { Request.blank 0x02 with x := x, y := y }
  | .vqQuant fa mul div k2 => { Request.blank 0x03 with fa := fa, mul := mul, div := div, k2 := k2 }
  | .vqDequant z mul div k2 => { Request.blank 0x04 with z := z, mul := mul, div := div, k2 := k2 }
  | .vqCellD k fa => { Request.blank 0x05 with k := k, fa := fa }
  | .vqCellSp k k2 fa fb => { Request.blank 0x06 with k := k, k2 := k2, fa := fa, fb := fb }
  | .dfEncode k x => { Request.blank 0x10 with k := k, x := x }
  | .dfFeed k => { Request.blank 0x11 with k := k }
  | .dfReset => Request.blank 0x12
  | .dfGetState => Request.blank 0x13
  | .dfSetState z => { Request.blank 0x14 with z := z }
  | .ckSum pk k => { Request.blank 0x20 with pk := pk, k := k }
  | .ckVerify pk => { Request.blank 0x21 with pk := pk }
  | .spEncode k y z => { Request.blank 0x30 with k := k, y := y, z := z }
  | .spEncode10 y z => { Request.blank 0x31 with y := y, z := z }
  | .spEmpty => Request.blank 0x32
  | .spDecode pk => { Request.blank 0x33 with pk := pk }

/-- The 248-bit request word that asks for an operation. -/
def encodeWord (i : Instr) : BitVec 248 := (encode i).toWord

/-- The request whose lowest `nbits` bits are those of `w` and whose other bits are 0: a row of
spec/opcode_table.json gives the 8 bits of `OP`. -/
def requestOfTableWord (nbits w : Nat) : Request := Request.ofWord (BitVec.ofNat 248 (w % 2 ^ nbits))

/-- The operation the decoder reads from a row of spec/opcode_table.json. -/
def decodeTableWord (nbits w : Nat) : Option Instr :=
  match decode (requestOfTableWord nbits w) with
  | .instr i => some i
  | .reserved _ => none

end Sys2Proof
end

