-- ==== Sys2Proof/Machine/State.lean ====
section
/-! DEFINITION. The state of the block (10_state.md), the two sides of its port, and the reset state. -/

namespace Sys2Proof.Machine

/-- The six values of `DF.STATE` (R23); the codes 6 and 7 are never held (log 7). -/
inductive DfState where
  | waitStart
  | readId
  | readDataLow
  | readDataHigh
  | escapePending
  | waitEnd
  deriving DecidableEq, Repr

/-- The deframer context, five registers (R22). -/
structure Context where
  /-- `DF.STATE`, R23. -/
  state : DfState
  /-- `DF.SLOT`, R24: 0 when an escape interrupts the low data byte, 1 when the high one. -/
  slot : BitVec 1
  /-- `DF.ID`, R25. -/
  id : Byte
  /-- `DF.DLO`, R25. -/
  dlo : Byte
  /-- `DF.DHI`, R25. -/
  dhi : Byte
  deriving DecidableEq, Repr

/-- The context after reset (R33), which is also the cleared context of R26 and R133. -/
def Context.clear : Context := ⟨.waitStart, 0, 0, 0, 0⟩

/-- One response: the fields of R71, all produced together; a field that is not written is 0 (R72). -/
structure Response where
  st : BitVec 3 := 0
  ev : BitVec 1 := 0
  rf : Word := 0
  rpk : ByteVec := 0
  rlen : BitVec 4 := 0
  rx : Half := 0
  ry : Half := 0
  rz : Word := 0
  rk : Byte := 0
  rk2 : Byte := 0
  deriving DecidableEq, Repr

/-- What the outside can do to the block between two steps: present a request (R73) or assert the reset
(R230, taken between transactions, R231; log 3). -/
inductive Input where
  | request (r : Request)
  | reset
  deriving DecidableEq, Repr

/-- The state: the deframer context, which is all the block holds (R13, R22), and the two sides of the
port, which are the model's own fields (log 1): what the outside will present, in issue order (R49), and
every response produced so far, newest first. No operation reads either list. -/
structure State where
  ctx : Context
  inputs : List Input
  responses : List Response
  deriving DecidableEq, Repr

/-- The reasons to fault: none. "The block never faults, never sticks and never hangs" (R15; log 11). -/
inductive Fault where
  deriving DecidableEq, Repr

/-- The reasons to refuse. No meaning and no step answers with one: every request gets a response (R15). -/
inductive Refusal where
  /-- Raised by `exec` alone, for an operation without a meaning; no arm does. Safe: the machine stops. -/
  | notModelled (mnemonic : String)
  deriving DecidableEq, Repr

/-- The outcome of a step of this machine. -/
abbrev Outcome := Host.Outcome State Fault Refusal

/-- The machine right after reset (R33, R230): the context clear, nothing presented, nothing answered. -/
def State.reset : State := ⟨Context.clear, [], []⟩

end Sys2Proof.Machine
end

