-- ==== Sys2Proof/Machine/Flags.lean ====
section
/-! DEFINITION. The block has no flags (10_state.md R29): what an operation reports beside its results is
the status code `ST` and the event bit `EV` of its response. -/

namespace Sys2Proof.Machine

/-- The four errors of R200, each the value of one `ST` code. -/
inductive Error where
  /-- `FramingError`, raised by `DF.FEED` alone (R201). -/
  | framing
  /-- `ChecksumError`, raised by `SP.DECODE` alone (R202). -/
  | checksum
  /-- `ArgumentRangeError` (R203). -/
  | argumentRange
  /-- `IllegalOp`, raised for a reserved operation code (R204). -/
  | illegalOp
  deriving DecidableEq, Repr

/-- The status code of an error (R77); 0 is `OK`. -/
def Error.code : Error → BitVec 3
  | .framing => 1
  | .checksum => 2
  | .argumentRange => 3
  | .illegalOp => 4

/-- The response of an error: `ST` is its code and every other field is 0 (R72, R205 (2)). -/
def Response.error (e : Error) : Response := { st := e.code }

/-- What the deframer reports for one byte (R133): nothing, a frame with its 16-bit value pattern (read as
`s_16`, R64; log 7), or a framing error. -/
inductive Event where
  | none
  | frame (id : Byte) (value : Half)
  | framingError
  deriving DecidableEq, Repr

/-- The answer of `DF.FEED` to an event (R134, R207): `EV` is 1 for a frame and only then. -/
def eventResult : Event → Except Error Response
  | .none => .ok {}
  | .frame id value => .ok { ev := 1, rk := id, rx := value }
  | .framingError => .error .framing

end Sys2Proof.Machine
end

