-- ==== Sys2Proof/Machine/Params.lean ====
section
/-! DEFINITION. The values of the parameters of 00_scope.md R6 for this hardware. -/

namespace Sys2Proof.Machine

/-- The table of R6, row by row. `verifyFirst` is 1 by 90_conflicts.md C5 (log 5), `spCellLayout` is D14's (log 6). -/
def hardware : Config where
  dMark := 0x5E
  dEsc := 0x5D
  dEscMark := 0x3E
  dEscEsc := 0x3D
  spLen := 8
  spTypeData := 0x10
  spEmptyChk := 0xFF
  spPollMark := 0x7E
  ckInit := 0
  ckGood := 0xFF
  encodeFirst := 0
  encodeLast := 6
  verifyFirst := 1
  verifyLast := 7
  cellScale := 500
  cellBits := 12
  cellIdBits := 4
  dmsSecNum := 6
  dmsSecDen := 1000
  floatFmt := .binary32
  numerics := .exact
  round := .nearestTiesAway
  trunc := .towardZero
  divMod := .truncating
  scaleBits := 16
  nCtx := 1
  spCellLayout := { idLo := 0, countLo := 4, cell1Lo := 8, cell2Lo := 20 }

end Sys2Proof.Machine
end

