-- ==== Sys2Proof/Machine/Operands.lean ====
section
/-! DEFINITION. Operand forms: byte vectors and byte order (00_scope.md R10, 20_memory.md R42), exact
rationals and their rounding (R9), binary32 operands and results (30_encoding.md R82), integer formats (R79). -/

namespace Sys2Proof.Machine

/-- `PK.byte[i]` (R42): bits `8i+7` to `8i`. -/
def byteAt (v : ByteVec) (i : Nat) : Byte := v.extractLsb' (8 * i) 8

/-- The eight bytes of a byte vector, byte 0 first (R42). -/
def vecBytes (v : ByteVec) : List Byte :=
  [byteAt v 0, byteAt v 1, byteAt v 2, byteAt v 3, byteAt v 4, byteAt v 5, byteAt v 6, byteAt v 7]

/-- The byte vector that holds a sequence from byte 0 up, `0x00` above it (R42, R72). -/
def vecOfBytes : List Byte → ByteVec
  | [] => 0
  | b :: bs => (vecOfBytes bs <<< 8) ||| b.setWidth 64

/-- The elements of a sequence at the indices `first` to `last`. -/
def byteRange (p : List Byte) (first last : Nat) : List Byte := (p.take (last + 1)).drop first

/-- `le16(v)` (R10). -/
def le16 (v : Half) : List Byte := [v.extractLsb' 0 8, v.extractLsb' 8 8]

/-- `le32(v)` (R10). -/
def le32 (v : Word) : List Byte :=
  [v.extractLsb' 0 8, v.extractLsb' 8 8, v.extractLsb' 16 8, v.extractLsb' 24 8]

/-- `unle16([b0, b1])` (R10). -/
def unle16 (b0 b1 : Byte) : Half := b0.setWidth 16 ||| (b1.setWidth 16 <<< 8)

/-- `unle32([b0, b1, b2, b3])` (R10). -/
def unle32 (b0 b1 b2 b3 : Byte) : Word :=
  b0.setWidth 32 ||| (b1.setWidth 32 <<< 8) ||| (b2.setWidth 32 <<< 16) ||| (b3.setWidth 32 <<< 24)

/-- An exact rational `num / den` with `den` not 0, kept unreduced (log 9): the numbers of R9 and R120. -/
structure Frac where
  num : Int
  den : Nat
  deriving DecidableEq, Repr

/-- The rational a fraction stands for; claims speak of it, no meaning computes with it. -/
def Frac.toRat (q : Frac) : Rat := (q.num : Rat) / (q.den : Rat)

/-- An integer as an exact rational. -/
def Frac.ofInt (i : Int) : Frac := ⟨i, 1⟩

/-- Exact sum. -/
def Frac.add (a b : Frac) : Frac := ⟨a.num * b.den + b.num * a.den, a.den * b.den⟩

/-- Exact difference. -/
def Frac.sub (a b : Frac) : Frac := ⟨a.num * b.den - b.num * a.den, a.den * b.den⟩

/-- Absolute value. -/
def Frac.abs (a : Frac) : Frac := ⟨(a.num.natAbs : Int), a.den⟩

/-- Exact product with an unsigned integer. -/
def Frac.mulNat (a : Frac) (n : Nat) : Frac := ⟨a.num * n, a.den⟩

/-- Exact quotient by an unsigned integer that is not 0. -/
def Frac.divNat (a : Frac) (n : Nat) : Frac := ⟨a.num, a.den * n⟩

/-- `trunc(q)` (R9): the integer part, toward zero. -/
def truncFrac (c : Config) (q : Frac) : Int :=
  match c.trunc with
  | .towardZero => q.num.tdiv q.den

/-- `round(q)` (R9): for `q >= 0` it is `floor(q + 1/2)`, and it is odd in `q`. -/
def roundFrac (c : Config) (q : Frac) : Int :=
  match c.round with
  | .nearestTiesAway =>
    let m : Nat := (2 * q.num.natAbs + q.den) / (2 * q.den)
    if q.num < 0 then -(m : Int) else (m : Int)

/-- `tdiv(a, b)` of R9 under `DIVMOD`. -/
def divInt (c : Config) (a b : Int) : Int :=
  match c.divMod with
  | .truncating => a.tdiv b
  | .floor => a.fdiv b

/-- `trem(a, b)` of R9 under `DIVMOD`. -/
def remInt (c : Config) (a b : Int) : Int :=
  match c.divMod with
  | .truncating => a.tmod b
  | .floor => a.fmod b

/-- `class(f)` (R9). -/
inductive FloatClass where
  | finite
  | inf
  | nan
  deriving DecidableEq, Repr

/-- The biased exponent, bits 30..23 (R82). -/
def floatExponent (f : Word) : Nat := (f.extractLsb' 23 8).toNat

/-- The fraction field, bits 22..0 (R82). -/
def floatFraction (f : Word) : Nat := (f.extractLsb' 0 23).toNat

/-- `class(f)` (R9, R82). -/
def floatClass (c : Config) (f : Word) : FloatClass :=
  match c.floatFmt with
  | .binary32 =>
    if floatExponent f = 255 then (if floatFraction f = 0 then .inf else .nan) else .finite

/-- `real(f)` (R9, R82): the exact value of a finite pattern, subnormals included, both zeros 0. The value
is `sig * 2^(k - 150)`; one of the two truncated differences is 0. Of a pattern that is not finite no
rule asks the value (log 10). -/
def realOf (c : Config) (f : Word) : Frac :=
  match c.floatFmt with
  | .binary32 =>
    let e := floatExponent f
    let sig := if e = 0 then floatFraction f else 2 ^ 23 + floatFraction f
    let k := if e = 0 then 1 else e
    let mag : Nat := sig * 2 ^ (k - 150)
    ⟨if f.msb then -(mag : Int) else (mag : Int), 2 ^ (150 - k)⟩

/-- The integer nearest `n / d`, ties to even (R9, the tie rule of `toFloat`). -/
def roundEven (n d : Nat) : Nat :=
  let q := n / d
  let r := n % d
  if 2 * r < d then q else if d < 2 * r then q + 1 else q + q % 2

/-- The largest `e` with `2^e <= n / d`, for `n` and `d` not 0. -/
def floorLog2 (n d : Nat) : Int :=
  let e : Int := (n.log2 : Int) - (d.log2 : Int)
  if d * 2 ^ e.toNat ≤ n * 2 ^ (-e).toNat then e else e - 1

/-- `toFloat(q)` (R9): the binary32 value nearest `q`, ties to even, and `+0.0` for 0. `m` is the
significand in units of `2^(e - 23)`; a carry out of it raises the exponent field by itself. Outside the
range R9 promises, it follows IEEE 754 into subnormals and infinity, which no rule reaches (PRESUMED, log 10). -/
def toFloat (c : Config) (q : Frac) : Word :=
  match c.floatFmt with
  | .binary32 =>
    if q.num = 0 then 0
    else
      let n := q.num.natAbs
      let e : Int := max (floorLog2 n q.den) (-126)
      let m := roundEven (n * 2 ^ (23 - e).toNat) (q.den * 2 ^ (e - 23).toNat)
      let mag := min ((e + 126).toNat * 2 ^ 23 + m) 0x7F800000
      BitVec.ofNat 32 ((if q.num < 0 then 2 ^ 31 else 0) + mag)

/-- A target integer format (R79). -/
structure IntFormat where
  width : Nat
  signed : Bool
  deriving DecidableEq, Repr

/-- The format in `K2` (R79): `K2[1:0]` the width, 3 reserved; `K2[2]` signed; `K2[7:3]` ignored. -/
def intFormat (k2 : Byte) : Option IntFormat :=
  let w := (k2.extractLsb' 0 2).toNat
  if w = 3 then none else some ⟨8 <<< w, k2.getLsbD 2⟩

/-- The least integer of a format (R79). -/
def IntFormat.lo (f : IntFormat) : Int := if f.signed then -(2 ^ (f.width - 1) : Int) else 0

/-- The greatest integer of a format (R79). -/
def IntFormat.hi (f : IntFormat) : Int := if f.signed then 2 ^ (f.width - 1) - 1 else 2 ^ f.width - 1

/-- The integer that the low bits of a word encode in a format (R113): `s_w(p)` or `p` with
`p = Z[w-1:0]`. -/
def IntFormat.read (f : IntFormat) (z : Word) : Int :=
  let p := z.extractLsb' 0 f.width
  if f.signed then p.toInt else (p.toNat : Int)

end Sys2Proof.Machine
end

