-- ==== Sys2Proof/Machine/Ops.lean ====
section
/-! DEFINITION. The shared operations on the state: answering, raising an error (60_exceptions.md R205),
writing the context, and the context token (30_encoding.md R78). -/

namespace Sys2Proof.Machine

/-- Produce one response (R73). -/
def State.respond (s : State) (r : Response) : State := { s with responses := r :: s.responses }

/-- Raise an error (R205): the response carries its code and zeros, and state is unchanged. It transfers no
control and saves nothing (R210), and there is nothing to return from (R211). -/
def State.raise (s : State) (e : Error) : State := s.respond (Response.error e)

/-- End an operation: `return` with its results, or `raise` (R8). -/
def State.finish (s : State) : Except Error Response → State
  | .ok r => s.respond r
  | .error e => s.raise e

/-- Write the deframer context (R22). -/
def State.setContext (s : State) (c : Context) : State := { s with ctx := c }

/-- The external reset (R230): its whole effect is on the context. -/
def State.hardReset (s : State) : State := s.setContext Context.clear

/-- Take the input presented first; the others keep their order (R49). -/
def State.dropInput (s : State) : State := { s with inputs := s.inputs.tail }

/-- The answer to a reserved operation code (R76, R204). -/
def State.answerReserved (s : State) : State := s.raise .illegalOp

/-- The codes of R23. -/
def DfState.code : DfState → BitVec 3
  | .waitStart => 0
  | .readId => 1
  | .readDataLow => 2
  | .readDataHigh => 3
  | .escapePending => 4
  | .waitEnd => 5

/-- The state of a code; 6 and 7 are reserved (R23, R142). -/
def dfStateOfCode (b : BitVec 3) : Option DfState :=
  match b.toNat with
  | 0 => some .waitStart
  | 1 => some .readId
  | 2 => some .readDataLow
  | 3 => some .readDataHigh
  | 4 => some .escapePending
  | 5 => some .waitEnd
  | _ => none

/-- The 32-bit token of a context (R78): `DHI`, `DLO`, `ID`, four zero bits, `SLOT`, `STATE`. -/
def Context.token (c : Context) : Word :=
  c.dhi ++ c.dlo ++ c.id ++ (0 : BitVec 4) ++ c.slot ++ c.state.code

/-- The context a token loads (R78, R142): bits 7..4 are ignored, a reserved state code is refused. -/
def contextOfToken (z : Word) : Option Context :=
  (dfStateOfCode (z.extractLsb' 0 3)).map fun st =>
    ⟨st, z.extractLsb' 3 1, z.extractLsb' 8 8, z.extractLsb' 16 8, z.extractLsb' 24 8⟩

end Sys2Proof.Machine
end

