-- ==== Sys2Proof/Machine/ChecksumEngine.lean ====
section
/-! DEFINITION. CK, the 8-bit checksum accumulator with fold logic (42_checksum_engine.md). -/

namespace Sys2Proof.Machine

/-- `Fold1(crc, b)` (R160): the five steps of the source on a 16-bit accumulator, the last two kept though
they change nothing (C9). -/
def fold1 (crc b : Byte) : Byte :=
  let t : BitVec 16 := crc.setWidth 16 + b.setWidth 16
  let t := t + (t >>> 8)
  let t := t &&& 0xFF
  let t := t + (t >>> 8)
  let t := t &&& 0xFF
  t.setWidth 8

/-- `FoldSeq(bytes)` (R161): from `CK_INIT`, first byte to last. -/
def foldSeq (c : Config) (bytes : List Byte) : Byte := bytes.foldl fold1 c.ckInit

/-- `VerifyFold(p)` (R163): the fold of the packet bytes `VERIFY_FIRST` to `VERIFY_LAST`. -/
def verifyFold (c : Config) (p : List Byte) : Byte := foldSeq c (byteRange p c.verifyFirst c.verifyLast)

/-- `Verify(p)` (R163). -/
def verify (c : Config) (p : List Byte) : Bool := verifyFold c p == c.ckGood

/-- `CK.SUM` (R162): the fold of the first `K` bytes and its complement; the port carries `SP_LEN` bytes. -/
def ckSum (c : Config) (pk : ByteVec) (k : Byte) : Except Error Response :=
  if k.toNat > c.spLen then .error .argumentRange
  else
    let crc := foldSeq c ((vecBytes pk).take k.toNat)
    .ok { rk := crc, rk2 := ~~~crc }

/-- `CK.VERIFY` (R164): the verdict is data, never an error. -/
def ckVerify (c : Config) (pk : ByteVec) : Except Error Response :=
  .ok { rk := verifyFold c (vecBytes pk), rk2 := if verify c (vecBytes pk) then 1 else 0 }

/-- `CK.SUM`, OP 0x20 (R162). -/
def execCkSum (pk : ByteVec) (k : Byte) (s : State) : Outcome := .next (s.finish (ckSum hardware pk k))

/-- `CK.VERIFY`, OP 0x21 (R164). -/
def execCkVerify (pk : ByteVec) (s : State) : Outcome := .next (s.finish (ckVerify hardware pk))

end Sys2Proof.Machine
end

