-- ==== Sys2Proof/Machine/DFrameCodec.lean ====
section
/-! DEFINITION. DF, the D-protocol byte-stuffer and deframer (41_d_frame_codec.md). -/

namespace Sys2Proof.Machine

/-- `Esc(b)` (R130). -/
def esc (c : Config) (b : Byte) : List Byte :=
  if b = c.dMark then [c.dEsc, c.dEscMark]
  else if b = c.dEsc then [c.dEsc, c.dEscEsc]
  else [b]

/-- `Frame(id, value)` (R131): the id and the markers are never escaped (R60, R63). -/
def frame (c : Config) (id : Byte) (value : Half) : List Byte :=
  [c.dMark, id] ++ esc c (value.extractLsb' 0 8) ++ esc c (value.extractLsb' 8 8) ++ [c.dMark]

/-- The byte that the second byte of an escape pair stands for (R61, R133). -/
def unescape (c : Config) (b : Byte) : Option Byte :=
  if b = c.dEscMark then some c.dMark
  else if b = c.dEscEsc then some c.dEsc
  else none

/-- `DFeed(ctx, b)` (R133), the normative pseudocode: only `0x5D` is special in the data states, a raw
`0x5E` there is data (R139), and a mismatching end marker is consumed (R136, R138). -/
def dFeed (c : Config) (ctx : Context) (b : Byte) : Context × Event :=
  match ctx.state with
  | .waitStart =>
    if b = c.dMark then (⟨.readId, 0, 0, 0, 0⟩, .none) else (Context.clear, .none)
  | .readId => (⟨.readDataLow, 0, b, 0, 0⟩, .none)
  | .readDataLow =>
    if b = c.dEsc then (⟨.escapePending, 0, ctx.id, 0, 0⟩, .none)
    else (⟨.readDataHigh, 0, ctx.id, b, 0⟩, .none)
  | .readDataHigh =>
    if b = c.dEsc then (⟨.escapePending, 1, ctx.id, ctx.dlo, 0⟩, .none)
    else (⟨.waitEnd, 0, ctx.id, ctx.dlo, b⟩, .none)
  | .escapePending =>
    match unescape c b with
    | none => (Context.clear, .framingError)
    | some u =>
      if ctx.slot = 0 then (⟨.readDataHigh, 0, ctx.id, u, 0⟩, .none)
      else (⟨.waitEnd, 0, ctx.id, ctx.dlo, u⟩, .none)
  | .waitEnd =>
    if b = c.dMark then (Context.clear, .frame ctx.id (unle16 ctx.dlo ctx.dhi))
    else (Context.clear, .framingError)

/-- `DF.ENCODE` (R132): the frame in `RPK`, its length in `RLEN`. -/
def dfEncode (c : Config) (k : Byte) (x : Half) : Except Error Response :=
  let f := frame c k x
  .ok { rpk := vecOfBytes f, rlen := BitVec.ofNat 4 f.length }

/-- `DF.ENCODE`, OP 0x10 (R132): it does not touch the context. -/
def execDfEncode (k : Byte) (x : Half) (s : State) : Outcome := .next (s.finish (dfEncode hardware k x))

/-- `DF.FEED`, OP 0x11 (R134): the context is written first, also where the byte raises (R201, R205 (3)). -/
def execDfFeed (k : Byte) (s : State) : Outcome :=
  .next ((s.setContext (dFeed hardware s.ctx k).1).finish (eventResult (dFeed hardware s.ctx k).2))

/-- `DF.RESET`, OP 0x12 (R140). -/
def execDfReset (s : State) : Outcome := .next ((s.setContext Context.clear).finish (.ok {}))

/-- `DF.GETSTATE`, OP 0x13 (R141). -/
def execDfGetState (s : State) : Outcome := .next (s.finish (.ok { rz := s.ctx.token }))

/-- `DF.SETSTATE`, OP 0x14 (R142): a reserved state code is refused with the context unchanged. -/
def execDfSetState (z : Word) (s : State) : Outcome :=
  .next
    (match contextOfToken z with
    | none => s.finish (.error .argumentRange)
    | some c => (s.setContext c).finish (.ok {}))

/-- The inputs that feed a sequence of bytes in order: `DF.FEEDALL` of the listings (R84). -/
def feedAll (bs : List Byte) : List Input :=
  bs.map fun b => .request { Request.blank 0x11 with k := b }

end Sys2Proof.Machine
end

