-- ==== Sys2Proof/Machine/SpPacketCodec.lean ====
section
/-! DEFINITION. SP, the SP-protocol packet assembler and parser (43_sp_packet_codec.md). -/

namespace Sys2Proof.Machine

/-- Bytes 0 to 6 of a packet (R66, R67): type, id and value, little-endian. -/
def packBody (type : Byte) (id : Half) (value : Word) : List Byte := type :: le16 id ++ le32 value

/-- `Pack(type, id, value)` (R175): byte 7 is the complement of the fold of the bytes `ENCODE_FIRST` to
`ENCODE_LAST`. -/
def pack (c : Config) (type : Byte) (id : Half) (value : Word) : List Byte :=
  let body := packBody type id value
  body ++ [~~~(foldSeq c (byteRange body c.encodeFirst c.encodeLast))]

/-- A built packet as a result: the bytes in `RPK`, `RLEN` 8 (R176 to R178). -/
def packetResult (c : Config) (p : List Byte) : Response :=
  { rpk := vecOfBytes p, rlen := BitVec.ofNat 4 c.spLen }

/-- `SP.ENCODE` (R176): every type, id and value is accepted (D33). -/
def spEncode (c : Config) (k : Byte) (y : Half) (z : Word) : Except Error Response :=
  .ok (packetResult c (pack c k y z))

/-- `SP.ENCODE10` (R177): the type is `SP_TYPE_DATA`. -/
def spEncode10 (c : Config) (y : Half) (z : Word) : Except Error Response :=
  .ok (packetResult c (pack c c.spTypeData y z))

/-- `SP.EMPTY` (R178): the constant empty-answer packet of R69. -/
def spEmpty (c : Config) : Except Error Response :=
  .ok (packetResult c [0x00, 0x00, 0x00, 0x00, 0x00, 0x00, 0x00, c.spEmptyChk])

/-- `SP.DECODE` (R179): the fields of a packet that verifies; the type is not looked at (R181). -/
def spDecode (c : Config) (pk : ByteVec) : Except Error Response :=
  if verify c (vecBytes pk) = false then .error .checksum
  else
    .ok
      { rk := byteAt pk 0
        ry := unle16 (byteAt pk 1) (byteAt pk 2)
        rz := unle32 (byteAt pk 3) (byteAt pk 4) (byteAt pk 5) (byteAt pk 6) }

/-- `SP.ENCODE`, OP 0x30 (R176). -/
def execSpEncode (k : Byte) (y : Half) (z : Word) (s : State) : Outcome :=
  .next (s.finish (spEncode hardware k y z))

/-- `SP.ENCODE10`, OP 0x31 (R177). -/
def execSpEncode10 (y : Half) (z : Word) (s : State) : Outcome := .next (s.finish (spEncode10 hardware y z))

/-- `SP.EMPTY`, OP 0x32 (R178). -/
def execSpEmpty (s : State) : Outcome := .next (s.finish (spEmpty hardware))

/-- `SP.DECODE`, OP 0x33 (R179). -/
def execSpDecode (pk : ByteVec) (s : State) : Outcome := .next (s.finish (spDecode hardware pk))

end Sys2Proof.Machine
end

