-- ==== Sys2Proof/Machine/ValueQuantizer.lean ====
section
/-! DEFINITION. VQ, the fixed-point value quantizer (40_value_quantizer.md): seven pure operations. Each
`vq…` is the rule's pseudocode, each `exec…` the operation. -/

namespace Sys2Proof.Machine

/-- `VQ.SPLIT` (R102): truncate, then round the scaled distance. No carry into `before` (R104), and the
sign is lost where `before` is 0 (R103). -/
def vqSplit (c : Config) (fa : Word) (mul : Half) : Except Error Response :=
  if floatClass c fa ≠ .finite then .error .argumentRange
  else if mul = 0 then .error .argumentRange
  else
    let v := realOf c fa
    let b := truncFrac c v
    if b < -32768 ∨ b > 32767 then .error .argumentRange
    else
      let a := roundFrac c ((v.sub (Frac.ofInt b)).abs.mulNat mul.toNat)
      .ok { rx := BitVec.ofInt 16 b, ry := BitVec.ofInt 16 a }

/-- The exact value that `VQ.JOIN` rounds (R105): a zero `before` adds (C2), and `after` is not compared
with the scale (D34). -/
def joinExact (x y mul : Half) : Frac :=
  let b := Frac.ofInt x.toInt
  let a := (Frac.ofInt y.toNat).divNat mul.toNat
  if 0 ≤ x.toInt then b.add a else b.sub a

/-- `VQ.JOIN` (R105). -/
def vqJoin (c : Config) (x y mul : Half) : Except Error Response :=
  if mul = 0 then .error .argumentRange
  else .ok { rf := toFloat c (joinExact x y mul) }

/-- The exact seconds of `VQ.DMS` (R108): `ap` times the decimal constant 0.006. -/
def dmsSeconds (c : Config) (y : Half) : Frac :=
  ((Frac.ofInt y.toNat).mulNat c.dmsSecNum).divNat c.dmsSecDen

/-- `VQ.DMS` (R108, R109): every operand is accepted. -/
def vqDms (c : Config) (x y : Half) : Except Error Response :=
  .ok
    { rx := BitVec.ofInt 16 (divInt c x.toInt 100)
      ry := BitVec.ofInt 16 (remInt c x.toInt 100)
      rf := toFloat c (dmsSeconds c y) }

/-- `VQ.QUANT` (R111): the range check is made after rounding. -/
def vqQuant (c : Config) (fa : Word) (mul div : Half) (k2 : Byte) : Except Error Response :=
  if floatClass c fa ≠ .finite then .error .argumentRange
  else if mul = 0 ∨ div = 0 then .error .argumentRange
  else
    match intFormat k2 with
    | none => .error .argumentRange
    | some f =>
      let q := roundFrac c (((realOf c fa).mulNat mul.toNat).divNat div.toNat)
      if q < f.lo ∨ q > f.hi then .error .argumentRange
      else .ok { rz := BitVec.ofInt 32 q }

/-- The exact value that `VQ.DEQUANT` rounds (R113): `n * DIV / MUL`. -/
def dequantExact (f : IntFormat) (z : Word) (mul div : Half) : Frac :=
  ((Frac.ofInt (f.read z)).mulNat div.toNat).divNat mul.toNat

/-- `VQ.DEQUANT` (R113). -/
def vqDequant (c : Config) (z : Word) (mul div : Half) (k2 : Byte) : Except Error Response :=
  if mul = 0 ∨ div = 0 then .error .argumentRange
  else
    match intFormat k2 with
    | none => .error .argumentRange
    | some f => .ok { rf := toFloat c (dequantExact f z mul div) }

/-- `CellScaled(f)` (R117): the 12-bit scaled voltage, refused where it does not fit (D12). -/
def cellScaled (c : Config) (f : Word) : Except Error (BitVec 12) :=
  if floatClass c f ≠ .finite then .error .argumentRange
  else
    let s := roundFrac c ((realOf c f).mulNat c.cellScale)
    if s < 0 ∨ s > 2 ^ c.cellBits - 1 then .error .argumentRange
    else .ok (BitVec.ofInt 12 s)

/-- The low 4 bits of a cell id or count; the others are masked silently (R116). -/
def cellNibble (c : Config) (k : Byte) : Byte := k &&& BitVec.ofNat 8 (2 ^ c.cellIdBits - 1)

/-- byte1 of the D layout (R80): the id nibble above the high four voltage bits. -/
def cellByte1 (c : Config) (k : Byte) (s : BitVec 12) : Byte :=
  (s >>> 8).setWidth 8 ||| (cellNibble c k <<< 4)

/-- byte2 of the D layout (R80). -/
def cellByte2 (s : BitVec 12) : Byte := s.setWidth 8

/-- The result of `VQ.CELLD` for a scaled voltage (R115); byte1 is the low byte of the word (D13). -/
def cellDResult (c : Config) (k : Byte) (s : BitVec 12) : Response :=
  let byte1 := cellByte1 c k s
  let byte2 := cellByte2 s
  { rk := byte1, rk2 := byte2, rz := byte1.setWidth 32 ||| (byte2.setWidth 32 <<< 8) }

/-- `VQ.CELLD` (R115). -/
def vqCellD (c : Config) (k : Byte) (fa : Word) : Except Error Response :=
  match cellScaled c fa with
  | .error e => .error e
  | .ok s => .ok (cellDResult c k s)

/-- The SP cell word (R81, R118): its parts at the places of `SP_CELL_LAYOUT` (log 6). -/
def cellSpWord (c : Config) (k k2 : Byte) (s1 s2 : BitVec 12) : Word :=
  ((cellNibble c k).setWidth 32 <<< c.spCellLayout.idLo) |||
  ((cellNibble c k2).setWidth 32 <<< c.spCellLayout.countLo) |||
  (s1.setWidth 32 <<< c.spCellLayout.cell1Lo) |||
  (s2.setWidth 32 <<< c.spCellLayout.cell2Lo)

/-- `VQ.CELLSP` (R118): `FA` is checked before `FB` (R208). -/
def vqCellSp (c : Config) (k k2 : Byte) (fa fb : Word) : Except Error Response :=
  match cellScaled c fa with
  | .error e => .error e
  | .ok s1 =>
    match cellScaled c fb with
    | .error e => .error e
    | .ok s2 => .ok { rz := cellSpWord c k k2 s1 s2 }

/-- `VQ.SPLIT`, OP 0x00 (R102). -/
def execVqSplit (fa : Word) (mul : Half) (s : State) : Outcome := .next (s.finish (vqSplit hardware fa mul))

/-- `VQ.JOIN`, OP 0x01 (R105). -/
def execVqJoin (x y mul : Half) (s : State) : Outcome := .next (s.finish (vqJoin hardware x y mul))

/-- `VQ.DMS`, OP 0x02 (R108). -/
def execVqDms (x y : Half) (s : State) : Outcome := .next (s.finish (vqDms hardware x y))

/-- `VQ.QUANT`, OP 0x03 (R111). -/
def execVqQuant (fa : Word) (mul div : Half) (k2 : Byte) (s : State) : Outcome :=
  .next (s.finish (vqQuant hardware fa mul div k2))

/-- `VQ.DEQUANT`, OP 0x04 (R113). -/
def execVqDequant (z : Word) (mul div : Half) (k2 : Byte) (s : State) : Outcome :=
  .next (s.finish (vqDequant hardware z mul div k2))

/-- `VQ.CELLD`, OP 0x05 (R115). -/
def execVqCellD (k : Byte) (fa : Word) (s : State) : Outcome := .next (s.finish (vqCellD hardware k fa))

/-- `VQ.CELLSP`, OP 0x06 (R118). -/
def execVqCellSp (k k2 : Byte) (fa fb : Word) (s : State) : Outcome :=
  .next (s.finish (vqCellSp hardware k k2 fa fb))

end Sys2Proof.Machine
end

