-- ==== Sys2Proof/Machine/Dispatch.lean ====
section
/-! DEFINITION. The dispatch: one arm per operation of 30_encoding.md R75. -/

namespace Sys2Proof.Machine

def exec (i : Instr) (s : State) : Host.Outcome State Fault Refusal :=
  match i with
  | .vqSplit fa mul => Sys2Proof.Machine.execVqSplit fa mul s
  | .vqJoin x y mul => Sys2Proof.Machine.execVqJoin x y mul s
  | .vqDms x y => Sys2Proof.Machine.execVqDms x y s
  | .vqQuant fa mul div k2 => Sys2Proof.Machine.execVqQuant fa mul div k2 s
  | .vqDequant z mul div k2 => Sys2Proof.Machine.execVqDequant z mul div k2 s
  | .vqCellD k fa => Sys2Proof.Machine.execVqCellD k fa s
  | .vqCellSp k k2 fa fb => Sys2Proof.Machine.execVqCellSp k k2 fa fb s
  | .dfEncode k x => Sys2Proof.Machine.execDfEncode k x s
  | .dfFeed k => Sys2Proof.Machine.execDfFeed k s
  | .dfReset => Sys2Proof.Machine.execDfReset s
  | .dfGetState => Sys2Proof.Machine.execDfGetState s
  | .dfSetState z => Sys2Proof.Machine.execDfSetState z s
  | .ckSum pk k => Sys2Proof.Machine.execCkSum pk k s
  | .ckVerify pk => Sys2Proof.Machine.execCkVerify pk s
  | .spEncode k y z => Sys2Proof.Machine.execSpEncode k y z s
  | .spEncode10 y z => Sys2Proof.Machine.execSpEncode10 y z s
  | .spEmpty => Sys2Proof.Machine.execSpEmpty s
  | .spDecode pk => Sys2Proof.Machine.execSpDecode pk s

end Sys2Proof.Machine
end

