-- ==== Sys2Proof/Machine/Step.lean ====
section
/-! DEFINITION. One step of the machine: the block takes what the outside presents next (00_scope.md R12,
20_memory.md R49). -/

namespace Sys2Proof.Machine

/-- One step. A request is decoded and executed, `OP` before anything else (R208); a reserved code is
answered (R204); a reset acts on the context (R230); with nothing presented the block idles (R217; log 2). -/
def step (s : State) : Host.Outcome State Fault Refusal :=
  match s.inputs with
  | [] => .next s
  | .reset :: _ => .next s.dropInput.hardReset
  | .request r :: _ =>
    match decode r with
    | .instr i => exec i s.dropInput
    | .reserved _ => .next s.dropInput.answerReserved

/-- The host presents, before anything else it will present, the request that a row of
spec/opcode_table.json gives (log 1, log 4). -/
def State.withFetchWord (s : State) (nbits w : Nat) : State :=
  { s with inputs := .request (requestOfTableWord nbits w) :: s.inputs }

end Sys2Proof.Machine
end

