-- ==== Sys2Proof/Machine/PortMap.lean ====
section
/-! DEFINITION. The operation-code map as data: which port fields each operation reads and writes
(30_encoding.md R75, R83), which error it can raise and whether it reads or writes the context
(10_state.md R27, 60_exceptions.md R218). No meaning reads it; the claims hold the meanings against it. -/

namespace Sys2Proof.Machine

/-- A field of the request but `OP` (R70). -/
inductive ReqField where
  | fa | fb | pk | x | y | z | mul | div | k | k2
  deriving DecidableEq, Repr

/-- A field of the response but `ST` (R71). -/
inductive RspField where
  | ev | rf | rpk | rlen | rx | ry | rz | rk | rk2
  deriving DecidableEq, Repr

/-- The request with every field outside a list set to 0 (`OP` stays). -/
def keepRequest (fs : List ReqField) (r : Request) : Request where
  op := r.op
  fa := if fs.contains .fa then r.fa else 0
  fb := if fs.contains .fb then r.fb else 0
  pk := if fs.contains .pk then r.pk else 0
  x := if fs.contains .x then r.x else 0
  y := if fs.contains .y then r.y else 0
  z := if fs.contains .z then r.z else 0
  mul := if fs.contains .mul then r.mul else 0
  div := if fs.contains .div then r.div else 0
  k := if fs.contains .k then r.k else 0
  k2 := if fs.contains .k2 then r.k2 else 0

/-- The response with every field outside a list set to 0 (`ST` stays). -/
def keepResponse (fs : List RspField) (r : Response) : Response where
  st := r.st
  ev := if fs.contains .ev then r.ev else 0
  rf := if fs.contains .rf then r.rf else 0
  rpk := if fs.contains .rpk then r.rpk else 0
  rlen := if fs.contains .rlen then r.rlen else 0
  rx := if fs.contains .rx then r.rx else 0
  ry := if fs.contains .ry then r.ry else 0
  rz := if fs.contains .rz then r.rz else 0
  rk := if fs.contains .rk then r.rk else 0
  rk2 := if fs.contains .rk2 then r.rk2 else 0

/-- One row of R75, with the source's operand and result names of R83, the error of R218 and the context
access of R27. -/
structure OpRow where
  op : Byte
  mnemonic : String
  operands : List (String × ReqField)
  results : List (String × RspField)
  writes : List RspField
  raises : Option Error
  readsContext : Bool
  writesContext : Bool
  deriving DecidableEq, Repr

/-- The request fields a row reads (R75): those its operands stand for. -/
def OpRow.reads (r : OpRow) : List ReqField := r.operands.map Prod.snd

/-- The seven VQ rows. -/
def vqRows : List OpRow :=
  [ ⟨0x00, "VQ.SPLIT", [("value", .fa), ("scale", .mul)], [("before", .rx), ("after", .ry)], [.rx, .ry],
      some .argumentRange, false, false⟩,
    ⟨0x01, "VQ.JOIN", [("before", .x), ("after", .y), ("scale", .mul)], [("result", .rf)], [.rf],
      some .argumentRange, false, false⟩,
    ⟨0x02, "VQ.DMS", [("bp", .x), ("ap", .y)], [("degrees", .rx), ("minutes", .ry), ("seconds", .rf)],
      [.rx, .ry, .rf], none, false, false⟩,
    ⟨0x03, "VQ.QUANT", [("value", .fa), ("mul", .mul), ("div", .div), ("fmt", .k2)], [("raw", .rz)], [.rz],
      some .argumentRange, false, false⟩,
    ⟨0x04, "VQ.DEQUANT", [("raw", .z), ("mul", .mul), ("div", .div), ("fmt", .k2)], [("result", .rf)], [.rf],
      some .argumentRange, false, false⟩,
    ⟨0x05, "VQ.CELLD", [("id", .k), ("volts", .fa)], [("byte1", .rk), ("byte2", .rk2), ("word", .rz)],
      [.rk, .rk2, .rz], some .argumentRange, false, false⟩,
    ⟨0x06, "VQ.CELLSP", [("id", .k), ("count", .k2), ("volts1", .fa), ("volts2", .fb)], [("word", .rz)], [.rz],
      some .argumentRange, false, false⟩ ]

/-- The five DF rows. -/
def dfRows : List OpRow :=
  [ ⟨0x10, "DF.ENCODE", [("id", .k), ("value", .x)], [("bytes", .rpk)], [.rpk, .rlen], none, false, false⟩,
    ⟨0x11, "DF.FEED", [("byte", .k)], [("id", .rk), ("value", .rx)], [.ev, .rk, .rx], some .framing, true, true⟩,
    ⟨0x12, "DF.RESET", [], [], [], none, false, true⟩,
    ⟨0x13, "DF.GETSTATE", [], [("token", .rz)], [.rz], none, true, false⟩,
    ⟨0x14, "DF.SETSTATE", [("token", .z)], [], [], some .argumentRange, false, true⟩ ]

/-- The two CK rows and the four SP rows. -/
def ckSpRows : List OpRow :=
  [ ⟨0x20, "CK.SUM", [("bytes", .pk), ("K", .k)], [("crc", .rk), ("chk", .rk2)], [.rk, .rk2],
      some .argumentRange, false, false⟩,
    ⟨0x21, "CK.VERIFY", [("packet", .pk)], [("fold", .rk), ("ok", .rk2)], [.rk, .rk2], none, false, false⟩,
    ⟨0x30, "SP.ENCODE", [("type", .k), ("id", .y), ("value", .z)], [("packet", .rpk)], [.rpk, .rlen],
      none, false, false⟩,
    ⟨0x31, "SP.ENCODE10", [("id", .y), ("value", .z)], [("packet", .rpk)], [.rpk, .rlen], none, false, false⟩,
    ⟨0x32, "SP.EMPTY", [], [("packet", .rpk)], [.rpk, .rlen], none, false, false⟩,
    ⟨0x33, "SP.DECODE", [("packet", .pk)], [("type", .rk), ("id", .ry), ("value", .rz)], [.rk, .ry, .rz],
      some .checksum, false, false⟩ ]

/-- The operation-code map (R75). -/
def opTable : List OpRow := vqRows ++ dfRows ++ ckSpRows

end Sys2Proof.Machine
end

