-- ==== Sys2Proof/Safety.lean ====
section
/-! DEFINITION. What counts as a sound run, in the terms the claims use: the canonical form of the context
(10_state.md R26, R34), the form of every response (30_encoding.md R72, R77), and the host duties that
speak of one request (70_reset_and_hazards.md R240, R242, R243). -/

namespace Sys2Proof.Machine

/-- The seven shapes of R34; `id`, `lo` and `hi` are free in them. -/
def Context.canonical (c : Context) : Bool :=
  match c.state with
  | .waitStart => c == Context.clear
  | .readId => c == ⟨.readId, 0, 0, 0, 0⟩
  | .readDataLow => c == ⟨.readDataLow, 0, c.id, 0, 0⟩
  | .readDataHigh => c == ⟨.readDataHigh, 0, c.id, c.dlo, 0⟩
  | .escapePending =>
    c == ⟨.escapePending, 0, c.id, 0, 0⟩ || c == ⟨.escapePending, 1, c.id, c.dlo, 0⟩
  | .waitEnd => c == ⟨.waitEnd, 0, c.id, c.dlo, c.dhi⟩

/-- The form of a response: `ST` is one of 0..4 (R77); an error response holds nothing else (R72, R205); a
frame event comes with id and value only (R207); `RLEN` is at most 8 and `RPK` is 0 from there up (R71, R72). -/
def Response.wellFormed (r : Response) : Bool :=
  decide (r.st.toNat ≤ 4) &&
  (r.st == 0 || r == { st := r.st }) &&
  (r.ev == 0 || r == { ev := 1, rk := r.rk, rx := r.rx }) &&
  decide (r.rlen.toNat ≤ 8) &&
  (r.rpk >>> (8 * r.rlen.toNat) == 0)

/-- A float result is `+0.0` or a normal number: "No operation produces an infinity, a NaN, a subnormal or a
negative zero" (R82). -/
def floatResultRegular (f : Word) : Bool :=
  f == 0 || (decide (1 ≤ floatExponent f) && decide (floatExponent f ≤ 254))

/-- Every response produced so far has its form. -/
def State.responsesWellFormed (s : State) : Bool := s.responses.all Response.wellFormed

/-- The host duties that speak of one request: a cell id (and count) of at most 15 (R240), a D id that is no
marker (R242), a token that `DF.GETSTATE` returns for a canonical context, so that bits 7..4 are 0 (R243, R141;
canonical because a host that keeps the duties loads no other context, R26, R34). -/
def Instr.meetsHostDuties : Instr → Bool
  | .vqCellD k _ => decide (k.toNat ≤ 15)
  | .vqCellSp k k2 _ _ => decide (k.toNat ≤ 15) && decide (k2.toNat ≤ 15)
  | .dfEncode k _ => k != hardware.dMark && k != hardware.dEsc
  | .dfSetState z => (contextOfToken z).any fun c => c.canonical && c.token == z
  | .vqSplit _ _ => true
  | .vqJoin _ _ _ => true
  | .vqDms _ _ => true
  | .vqQuant _ _ _ _ => true
  | .vqDequant _ _ _ _ => true
  | .dfFeed _ => true
  | .dfReset => true
  | .dfGetState => true
  | .ckSum _ _ => true
  | .ckVerify _ => true
  | .spEncode _ _ _ => true
  | .spEncode10 _ _ => true
  | .spEmpty => true
  | .spDecode _ => true

/-- `b` is `trunc(v)` (R9): the integer part of `v`, toward zero. -/
def IsTrunc (v : Rat) (b : Int) : Prop := |(b : Rat)| ≤ |v| ∧ |v - b| < 1 ∧ 0 ≤ v * b

/-- `a` is `round(q)` (R9): the nearest integer, ties away from zero. -/
def IsRoundAway (q : Rat) (a : Int) : Prop := |q - a| ≤ 1 / 2 ∧ (|q - a| = 1 / 2 → |q| < |(a : Rat)|)

/-- The fold of a byte sequence by its sum (R165 (d)): 0 for the sum 0, else 255 for a multiple of 255, else
the remainder by 255. -/
def foldOfSum (bytes : List Byte) : Nat :=
  let sum := (bytes.map BitVec.toNat).sum
  if sum = 0 then 0 else if sum % 255 = 0 then 255 else sum % 255

end Sys2Proof.Machine
end

