-- ==== Sys2Proof/Certificates/Slice0/Obligations.lean ====
section
/-! DEFINITION. The statements for the provers, in the order of the spec's files: the port and one step,
invariants and frames, VQ, DF, CK, SP. -/

open Sys2Proof Sys2Proof.Machine

/-! ### The port and one step -/

/-- Every operation with every operand comes back from its 248-bit request word (R70, R75). The places of the fields
in that word are the model's choice (log 4). -/
def Obligations.RequestWordRoundTrip : Prop :=
  ∀ i : Instr, decodeWord (encodeWord i) = .instr i

/-- A decoded request encodes back to itself with the unread fields set to 0 (R72, R75). -/
def Obligations.DecodedRequestReencodes : Prop :=
  ∀ (r : Request) (i : Instr), decode r = .instr i →
    ∃ row ∈ opTable, row.op = r.op ∧ encode i = keepRequest row.reads r

/-- R72 whole: unread request fields have no influence; unwritten response fields are 0; an error response holds
nothing but its status; bytes of `RPK` from `RLEN` up are 0 (the spec's own choice, D32). -/
def Obligations.UnusedPortFieldsIgnoredOrZero : Prop :=
  (∀ (r : Request) (row : OpRow) (rest : List Input) (c : Context) (rs : List Response),
    row ∈ opTable → row.op = r.op →
      step ⟨c, .request (keepRequest row.reads r) :: rest, rs⟩ = step ⟨c, .request r :: rest, rs⟩) ∧
  (∀ (i : Instr) (s : State) (row : OpRow), row ∈ opTable → row.op = (encode i).op →
    ∃ (t : State) (rsp : Response), exec i s = .next t ∧ t.responses = rsp :: s.responses ∧
      keepResponse row.writes rsp = rsp ∧
      (rsp.st ≠ 0 → rsp = { st := rsp.st }) ∧
      rsp.rpk >>> (8 * rsp.rlen.toNat) = 0)

/-- R76 and R204: the reserved codes are the four ranges, 238 values, and a request with one is answered
`ILLEGAL_OP` (4), every other field 0, whatever its other fields hold, with no state change (the spec's own choice,
D24). -/
def Obligations.ReservedCodesAnswerIllegalOp : Prop :=
  (∀ op : Byte, definedOps.contains op = false ↔
    (0x07 ≤ op.toNat ∧ op.toNat ≤ 0x0F) ∨ (0x15 ≤ op.toNat ∧ op.toNat ≤ 0x1F) ∨
    (0x22 ≤ op.toNat ∧ op.toNat ≤ 0x2F) ∨ 0x34 ≤ op.toNat) ∧
  ((List.range 256).filter fun n => !definedOps.contains (BitVec.ofNat 8 n)).length = 238 ∧
  (∀ (r : Request) (c : Context) (rest : List Input) (rs : List Response),
    definedOps.contains r.op = false →
      step ⟨c, .request r :: rest, rs⟩ = .next ⟨c, rest, { st := 4 } :: rs⟩)

/-- A step whose next input is a request of a defined operation executes that operation on the state with the input
taken; every request of a defined code is one (R49, R208). -/
def Obligations.StepRunsDecodedRequest : Prop :=
  (∀ (r : Request) (i : Instr) (c : Context) (rest : List Input) (rs : List Response),
    decode r = .instr i → step ⟨c, .request r :: rest, rs⟩ = exec i ⟨c, rest, rs⟩) ∧
  (∀ r : Request, definedOps.contains r.op = true → ∃ i : Instr, decode r = .instr i)

/-- A few request words written out from R70 and R75 decode to their operations (log 4 for the places of the
fields). -/
def Obligations.WrittenOutWordsDecode : Prop :=
  decodeWord (0#8 ++ 0#8 ++ 0#16 ++ 0x2710#16 ++ 0#32 ++ 0#16 ++ 0#16 ++ 0#64 ++ 0#32 ++ 0x45963AC4#32 ++
    0x00#8) = .instr (.vqSplit 0x45963AC4#32 0x2710#16) ∧
  decodeWord (0x05#8 ++ 0#8 ++ 0x0001#16 ++ 0x0001#16 ++ 0#32 ++ 0#16 ++ 0#16 ++ 0#64 ++ 0#32 ++
    0xC1A00000#32 ++ 0x03#8) = .instr (.vqQuant 0xC1A00000#32 1#16 1#16 5#8) ∧
  decodeWord (0#8 ++ 0x02#8 ++ 0#16 ++ 0#16 ++ 0#32 ++ 0#16 ++ 0xFFEC#16 ++ 0#64 ++ 0#32 ++ 0#32 ++ 0x10#8) =
    .instr (.dfEncode 0x02#8 0xFFEC#16) ∧
  decodeWord (0#8 ++ 0#8 ++ 0#16 ++ 0#16 ++ 0#32 ++ 0#16 ++ 0#16 ++ 0x3D82A83460030000#64 ++ 0#32 ++ 0#32 ++
    0x33#8) = .instr (.spDecode 0x3D82A83460030000#64) ∧
  decodeTableWord 8 0x12 = some .dfReset ∧ decodeTableWord 8 0x07 = none

/-- With nothing presented the block idles (the model's choice, log 2); a reset between transactions acts on the
context alone (R230; that it is an input of the list is log 3). -/
def Obligations.StepIdlesAndResets : Prop :=
  (∀ (c : Context) (rs : List Response), step ⟨c, [], rs⟩ = .next ⟨c, [], rs⟩) ∧
  (∀ (c : Context) (rest : List Input) (rs : List Response),
    step ⟨c, .reset :: rest, rs⟩ = .next ⟨⟨.waitStart, 0, 0, 0, 0⟩, rest, rs⟩)

/-- The context after reset is `WAIT_START` and zeros, its token 0 (R33; the zeros are the spec's own choice, D25).
-/
def Obligations.ResetContextIsWaitStart : Prop :=
  State.reset.ctx = ⟨.waitStart, 0, 0, 0, 0⟩ ∧ State.reset.ctx.token = 0#32

/-- Every step of every state has a next state, and every request gets one response in one step, whatever its code:
the block never faults, sticks or hangs (R15). -/
def Obligations.StepAlwaysAnswers : Prop :=
  ∀ s : State, ∃ t : State, step s = .next t ∧
    ∀ (r : Request) (rest : List Input), s.inputs = .request r :: rest →
      t.inputs = rest ∧ ∃ rsp : Response, t.responses = rsp :: s.responses

/-! ### Invariants and frames -/

/-- Every response produced has its form (R71, R72, R77, R205, R207), and every step keeps that so. -/
def Obligations.ResponsesStayWellFormed : Prop :=
  ∀ s t : State, s.responsesWellFormed = true → step s = .next t → t.responsesWellFormed = true

/-- The reset state meets both invariants. -/
def Obligations.ResetMeetsInvariants : Prop :=
  State.reset.responsesWellFormed = true ∧ State.reset.ctx.canonical = true

/-- The canonical form of the context (R26, R34; the clearing is the spec's own choice, D18) is kept by every step,
but by a `DF.SETSTATE` whose token loads a context outside that form. -/
def Obligations.CanonicalContextKept : Prop :=
  ∀ s t : State, s.ctx.canonical = true →
    (∀ (r : Request) (z : Word) (c : Context), s.inputs.head? = some (.request r) →
      decode r = .instr (.dfSetState z) → contextOfToken z = some c → c.canonical = true) →
    step s = .next t → t.ctx.canonical = true

/-- The contexts that `DF.FEED` and `DF.RESET` alone reach from reset are exactly the seven shapes of R34. -/
def Obligations.ReachableContextsAreTheSevenShapes : Prop :=
  ∀ c : Context,
    (c = ⟨.waitStart, 0, 0, 0, 0⟩ ∨ c = ⟨.readId, 0, 0, 0, 0⟩ ∨
      (∃ id, c = ⟨.readDataLow, 0, id, 0, 0⟩) ∨ (∃ id, c = ⟨.escapePending, 0, id, 0, 0⟩) ∨
      (∃ id lo, c = ⟨.readDataHigh, 0, id, lo, 0⟩) ∨ (∃ id lo, c = ⟨.escapePending, 1, id, lo, 0⟩) ∨
      (∃ id lo hi, c = ⟨.waitEnd, 0, id, lo, hi⟩)) ↔
    ∃ ins : List Input,
      (∀ x ∈ ins, x = .request (encode .dfReset) ∨ ∃ b, x = .request (encode (.dfFeed b))) ∧
      ∃ rs, Host.Core.run Sys2Proof.core ins.length { State.reset with inputs := ins } = .next ⟨c, [], rs⟩

/-- R47: the fourteen pure operations give one response, the same in every state, and change nothing; `DF.GETSTATE`
depends on the context and changes nothing; the effect of the others is on the context alone; `DF.RESET` and
`DF.SETSTATE` are idempotent and `DF.FEED` is not. -/
def Obligations.SideEffectsAreConfined : Prop :=
  (∀ i : Instr, (∀ k, i ≠ .dfFeed k) → i ≠ .dfReset → i ≠ .dfGetState → (∀ z, i ≠ .dfSetState z) →
    ∃ rsp : Response, ∀ s : State, exec i s = .next ⟨s.ctx, s.inputs, rsp :: s.responses⟩) ∧
  (∀ c : Context, ∃ rsp : Response, ∀ (ins : List Input) (rs : List Response),
    exec .dfGetState ⟨c, ins, rs⟩ = .next ⟨c, ins, rsp :: rs⟩) ∧
  (∀ (i : Instr) (s : State), ∃ (c : Context) (rsp : Response),
    exec i s = .next ⟨c, s.inputs, rsp :: s.responses⟩) ∧
  (∀ (i : Instr) (s t u : State), (i = .dfReset ∨ ∃ z, i = .dfSetState z) →
    exec i s = .next t → exec i t = .next u → u.ctx = t.ctx) ∧
  (∃ (k : Byte) (s t u : State), exec (.dfFeed k) s = .next t ∧ exec (.dfFeed k) t = .next u ∧ u.ctx ≠ t.ctx)

/-- Every operation answers exactly once, leaves the inputs, and leaves the context unless its row of R75 writes it
(R27). -/
def Obligations.OnlyContextRowsWriteContext : Prop :=
  ∀ (i : Instr) (s : State) (row : OpRow), row ∈ opTable → row.op = (encode i).op →
    ∃ (t : State) (rsp : Response), exec i s = .next t ∧ t.inputs = s.inputs ∧
      t.responses = rsp :: s.responses ∧ (row.writesContext = false → t.ctx = s.ctx)

/-- The effects of an error (R205): the response holds the status alone, and state is unchanged but that a framing
error leaves the cleared context (the zeroed results are the spec's own choice, D4). -/
def Obligations.ErrorsChangeNothingElse : Prop :=
  ∀ (i : Instr) (s t : State) (rsp : Response), exec i s = .next t → t.responses = rsp :: s.responses →
    rsp.st ≠ 0 →
      rsp = { st := rsp.st } ∧ t.inputs = s.inputs ∧
        (t.ctx = s.ctx ∨ ∃ k, i = .dfFeed k ∧ rsp.st = 1 ∧ t.ctx = ⟨.waitStart, 0, 0, 0, 0⟩)

/-- An operation returns `OK` or the one error its row of R218 lists; a row without one always returns `OK` (R206).
-/
def Obligations.StatusIsOkOrTheRowsError : Prop :=
  ∀ (i : Instr) (s : State) (row : OpRow), row ∈ opTable → row.op = (encode i).op →
    ∃ (t : State) (rsp : Response), exec i s = .next t ∧ t.responses = rsp :: s.responses ∧
      (rsp.st = 0 ∨ ∃ e, row.raises = some e ∧ rsp.st = e.code)

/-- No operation produces an infinity, a NaN, a subnormal or a negative zero (R82). -/
def Obligations.FloatResultsAreRegular : Prop :=
  ∀ (i : Instr) (s t : State) (rsp : Response), exec i s = .next t → t.responses = rsp :: s.responses →
    floatResultRegular rsp.rf = true

/-! ### Numerics -/

/-- The exact value of a finite pattern is the one its sign, exponent and fraction fields give (R9, R82). -/
def Obligations.RealIsTheBinary32Value : Prop :=
  ∀ f : Word, floatClass hardware f = .finite →
    (realOf hardware f).toRat = (if f.msb then -1 else 1) *
      (if floatExponent f = 0 then (floatFraction f : Rat) * 2 ^ (-149 : Int)
        else ((2 ^ 23 + floatFraction f : Nat) : Rat) * 2 ^ ((floatExponent f : Int) - 150))

/-- `toFloat` gives the nearest finite pattern, the one with an even significand at a tie, and `+0.0` for 0, over
the range that R9 promises. -/
def Obligations.ToFloatIsNearestTiesToEven : Prop :=
  ∀ q : Frac, q.den ≠ 0 →
    (q.num = 0 → toFloat hardware q = 0#32) ∧
    (1 / 65535 ≤ |q.toRat| → |q.toRat| < 2 ^ 48 →
      floatClass hardware (toFloat hardware q) = .finite ∧
      ∀ g : Word, floatClass hardware g = .finite →
        |(realOf hardware (toFloat hardware q)).toRat - q.toRat| ≤ |(realOf hardware g).toRat - q.toRat| ∧
        (|(realOf hardware (toFloat hardware q)).toRat - q.toRat| = |(realOf hardware g).toRat - q.toRat| →
          (realOf hardware g).toRat ≠ (realOf hardware (toFloat hardware q)).toRat →
            floatFraction (toFloat hardware q) % 2 = 0))

/-- `toFloat` depends on the rational alone, not on the fraction that stands for it (R9). -/
def Obligations.ToFloatDependsOnValueOnly : Prop :=
  ∀ p q : Frac, p.den ≠ 0 → q.den ≠ 0 → p.toRat = q.toRat → toFloat hardware p = toFloat hardware q

/-- A normal pattern is its own nearest float: `toFloat` of its exact value gives it back (R9). -/
def Obligations.ToFloatInvertsReal : Prop :=
  ∀ f : Word, 1 ≤ floatExponent f → floatExponent f ≤ 254 → toFloat hardware (realOf hardware f) = f

/-- The integer formats of R79 (the spec's own encoding, D11): the width and sign in `K2[2:0]`, the range of each, 3
and 7 reserved, `K2[7:3]` ignored. -/
def Obligations.IntegerFormatsDecoded : Prop :=
  ∀ k2 : Byte,
    (intFormat k2).map (fun f => (f.width, f.signed, f.lo, f.hi)) =
      if k2.toNat % 8 = 0 then some (8, false, 0, 255)
      else if k2.toNat % 8 = 1 then some (16, false, 0, 65535)
      else if k2.toNat % 8 = 2 then some (32, false, 0, 4294967295)
      else if k2.toNat % 8 = 4 then some (8, true, -128, 127)
      else if k2.toNat % 8 = 5 then some (16, true, -32768, 32767)
      else if k2.toNat % 8 = 6 then some (32, true, -2147483648, 2147483647)
      else none

/-! ### VQ -/

/-- `VQ.SPLIT` (R102): `before` is the truncation, `after` the rounded scaled distance, and any other operand is
refused. -/
def Obligations.SplitTruncatesAndRounds : Prop :=
  ∀ (fa : Word) (mul : Half) (s : State),
    (floatClass hardware fa = .finite → mul ≠ 0 → -32769 < (realOf hardware fa).toRat →
      (realOf hardware fa).toRat < 32768 →
        ∃ b a : Int, IsTrunc (realOf hardware fa).toRat b ∧ -32768 ≤ b ∧ b ≤ 32767 ∧
          IsRoundAway (|(realOf hardware fa).toRat - b| * mul.toNat) a ∧ 0 ≤ a ∧ a ≤ mul.toNat ∧
          exec (.vqSplit fa mul) s = .next ⟨s.ctx, s.inputs,
            { rx := BitVec.ofInt 16 b, ry := BitVec.ofInt 16 a } :: s.responses⟩) ∧
    ((floatClass hardware fa ≠ .finite ∨ mul = 0 ∨ (realOf hardware fa).toRat ≤ -32769 ∨
        32768 ≤ (realOf hardware fa).toRat) →
      exec (.vqSplit fa mul) s = .next ⟨s.ctx, s.inputs, { st := 3 } :: s.responses⟩)

/-- The sign is lost where the integer part is 0 (R103): a value and its negation give one result, with `before` 0
and a non-negative `after`. -/
def Obligations.SplitLosesSignBelowOne : Prop :=
  ∀ (fa : Word) (mul : Half) (s : State), floatClass hardware fa = .finite → mul ≠ 0 →
    |(realOf hardware fa).toRat| < 1 →
      ∃ a : Int, IsRoundAway (|(realOf hardware fa).toRat| * mul.toNat) a ∧ 0 ≤ a ∧
        exec (.vqSplit fa mul) s = .next ⟨s.ctx, s.inputs, { ry := BitVec.ofInt 16 a } :: s.responses⟩ ∧
        exec (.vqSplit (fa ^^^ 0x80000000#32) mul) s = exec (.vqSplit fa mul) s

/-- `VQ.JOIN` (R105): a non-negative `before` adds, a negative one subtracts, the exact rational is rounded once; a
zero scale is refused; `after` above the scale is accepted (the spec's own choice, D34). -/
def Obligations.JoinAddsOrSubtracts : Prop :=
  ∀ (x y mul : Half) (s : State),
    (mul ≠ 0 → ∃ q : Frac, q.den ≠ 0 ∧
      q.toRat = (if 0 ≤ x.toInt then (x.toInt : Rat) + (y.toNat : Rat) / mul.toNat
        else (x.toInt : Rat) - (y.toNat : Rat) / mul.toNat) ∧
      exec (.vqJoin x y mul) s = .next ⟨s.ctx, s.inputs, { rf := toFloat hardware q } :: s.responses⟩) ∧
    (mul = 0 → exec (.vqJoin x y mul) s = .next ⟨s.ctx, s.inputs, { st := 3 } :: s.responses⟩)

/-- The round trip of R107: joining what a split gave is within half a unit of the value, up to one float rounding,
for `v >= 0` and `v <= -1`; for `-1 < v < 0` it is within the same bound of `abs(v)`. -/
def Obligations.SplitThenJoinWithinHalfUnit : Prop :=
  ∀ (fa : Word) (mul : Half) (s : State), floatClass hardware fa = .finite → mul ≠ 0 →
    -32769 < (realOf hardware fa).toRat → (realOf hardware fa).toRat < 32768 →
      ∃ (rx ry : Half) (rf : Word) (q : Rat),
        exec (.vqSplit fa mul) s = .next ⟨s.ctx, s.inputs, { rx := rx, ry := ry } :: s.responses⟩ ∧
        exec (.vqJoin rx ry mul) s = .next ⟨s.ctx, s.inputs, { rf := rf } :: s.responses⟩ ∧
        |(realOf hardware rf).toRat - q| ≤ |q| / 2 ^ 24 ∧
        ((0 ≤ (realOf hardware fa).toRat ∨ (realOf hardware fa).toRat ≤ -1) →
          |q - (realOf hardware fa).toRat| ≤ 1 / (2 * mul.toNat)) ∧
        ((-1 < (realOf hardware fa).toRat ∧ (realOf hardware fa).toRat < 0) →
          |q - abs (realOf hardware fa).toRat| ≤ 1 / (2 * mul.toNat))

/-- `VQ.DMS` (R108, R109): degrees and minutes are the truncating quotient and remainder by 100, seconds are `ap`
times exactly 0.006 rounded once (directions and exactness are the spec's own choices, D6, D8), every operand is
accepted, and the results lie in their ranges. -/
def Obligations.DmsDividesTowardZero : Prop :=
  ∀ (x y : Half) (s : State), ∃ (d m : Int) (q : Frac),
    x.toInt = 100 * d + m ∧ |m| < 100 ∧ 0 ≤ m * x.toInt ∧ -327 ≤ d ∧ d ≤ 327 ∧ -99 ≤ m ∧ m ≤ 99 ∧
    q.den ≠ 0 ∧ q.toRat = (y.toNat : Rat) * (6 / 1000) ∧ q.toRat ≤ 39321 / 100 ∧
    exec (.vqDms x y) s = .next ⟨s.ctx, s.inputs,
      { rx := BitVec.ofInt 16 d, ry := BitVec.ofInt 16 m, rf := toFloat hardware q } :: s.responses⟩

/-- `VQ.QUANT` (R111, the spec's own operation, D11): the value times `MUL/DIV`, rounded, then checked against the
format's range; every other operand is refused. -/
def Obligations.QuantRoundsThenChecksRange : Prop :=
  ∀ (fa : Word) (mul div : Half) (k2 : Byte) (s : State),
    (∀ (f : IntFormat) (q : Int), floatClass hardware fa = .finite → mul ≠ 0 → div ≠ 0 →
      intFormat k2 = some f → IsRoundAway ((realOf hardware fa).toRat * mul.toNat / div.toNat) q →
        (f.lo ≤ q → q ≤ f.hi → exec (.vqQuant fa mul div k2) s =
          .next ⟨s.ctx, s.inputs, { rz := BitVec.ofInt 32 q } :: s.responses⟩) ∧
        ((q < f.lo ∨ f.hi < q) → exec (.vqQuant fa mul div k2) s =
          .next ⟨s.ctx, s.inputs, { st := 3 } :: s.responses⟩)) ∧
    ((floatClass hardware fa ≠ .finite ∨ mul = 0 ∨ div = 0 ∨ k2.toNat % 4 = 3) →
      exec (.vqQuant fa mul div k2) s = .next ⟨s.ctx, s.inputs, { st := 3 } :: s.responses⟩)

/-- `VQ.DEQUANT` (R113, the spec's own operation, D11): the low `w` bits of `Z`, read signed or unsigned, times
`DIV/MUL`, rounded once; zero scales and reserved formats are refused. -/
def Obligations.DequantScalesLowBits : Prop :=
  ∀ (z : Word) (mul div : Half) (k2 : Byte) (s : State),
    (∀ f : IntFormat, mul ≠ 0 → div ≠ 0 → intFormat k2 = some f →
      ∃ (n : Int) (q : Frac),
        (f.signed = false → n = (z.toNat % 2 ^ f.width : Nat)) ∧
        (f.signed = true → n = Int.bmod z.toNat (2 ^ f.width)) ∧
        q.den ≠ 0 ∧ q.toRat = (n : Rat) * div.toNat / mul.toNat ∧
        exec (.vqDequant z mul div k2) s =
          .next ⟨s.ctx, s.inputs, { rf := toFloat hardware q } :: s.responses⟩) ∧
    ((mul = 0 ∨ div = 0 ∨ k2.toNat % 4 = 3) →
      exec (.vqDequant z mul div k2) s = .next ⟨s.ctx, s.inputs, { st := 3 } :: s.responses⟩)

/-- R114: when `VQ.QUANT` succeeds, `VQ.DEQUANT` of its result is within half a unit `DIV/MUL` of the value, up to
one float rounding. -/
def Obligations.QuantThenDequantWithinHalfUnit : Prop :=
  ∀ (fa : Word) (mul div : Half) (k2 : Byte) (s : State) (rz : Word),
    exec (.vqQuant fa mul div k2) s = .next ⟨s.ctx, s.inputs, { rz := rz } :: s.responses⟩ →
      ∃ (rf : Word) (q : Rat),
        exec (.vqDequant rz mul div k2) s = .next ⟨s.ctx, s.inputs, { rf := rf } :: s.responses⟩ ∧
        |(realOf hardware rf).toRat - q| ≤ |q| / 2 ^ 24 ∧
        |q - (realOf hardware fa).toRat| ≤ (div.toNat : Rat) / mul.toNat / 2

/-- `VQ.CELLD` (R115, R80, R117): with `n` the rounded voltage times 500, the id nibble and the high four bits make
byte1, the low eight bits byte2, byte1 the low byte of the word; a voltage that does not fit 12 bits or is not
finite is refused. -/
def Obligations.CellDPacksIdAndVoltage : Prop :=
  ∀ (k : Byte) (fa : Word) (s : State),
    (∀ n : Nat, floatClass hardware fa = .finite → IsRoundAway ((realOf hardware fa).toRat * 500) n → n ≤ 4095 →
      exec (.vqCellD k fa) s = .next ⟨s.ctx, s.inputs,
        { rk := BitVec.ofNat 8 (16 * (k.toNat % 16) + n / 256), rk2 := BitVec.ofNat 8 (n % 256),
          rz := BitVec.ofNat 32 (16 * (k.toNat % 16) + n / 256 + 256 * (n % 256)) } :: s.responses⟩) ∧
    ((floatClass hardware fa ≠ .finite ∨
        ∃ n : Int, IsRoundAway ((realOf hardware fa).toRat * 500) n ∧ (n < 0 ∨ 4095 < n)) →
      exec (.vqCellD k fa) s = .next ⟨s.ctx, s.inputs, { st := 3 } :: s.responses⟩)

/-- `VQ.CELLSP` (R118, R81): id in bits 3..0, count in bits 7..4, the two scaled voltages in bits 19..8 and 31..20
(the layout the spec marks as from general knowledge, log 6); a voltage that does not fit or is not finite is
refused. -/
def Obligations.CellSpPacksTwoVoltages : Prop :=
  ∀ (k k2 : Byte) (fa fb : Word) (s : State),
    (∀ n1 n2 : Nat, floatClass hardware fa = .finite → floatClass hardware fb = .finite →
      IsRoundAway ((realOf hardware fa).toRat * 500) n1 → n1 ≤ 4095 →
      IsRoundAway ((realOf hardware fb).toRat * 500) n2 → n2 ≤ 4095 →
        exec (.vqCellSp k k2 fa fb) s = .next ⟨s.ctx, s.inputs,
          { rz := BitVec.ofNat 32 (k.toNat % 16 + 16 * (k2.toNat % 16) + 2 ^ 8 * n1 + 2 ^ 20 * n2) } ::
            s.responses⟩) ∧
    ((floatClass hardware fa ≠ .finite ∨ floatClass hardware fb ≠ .finite ∨
        (∃ n : Int, IsRoundAway ((realOf hardware fa).toRat * 500) n ∧ (n < 0 ∨ 4095 < n)) ∨
        (∃ n : Int, IsRoundAway ((realOf hardware fb).toRat * 500) n ∧ (n < 0 ∨ 4095 < n))) →
      exec (.vqCellSp k k2 fa fb) s = .next ⟨s.ctx, s.inputs, { st := 3 } :: s.responses⟩)

/-- R116: only the low 4 bits of a cell id (and count) are used, and no id or count makes an error: where the
voltages fit, every id and count is answered `OK`. -/
def Obligations.CellIdIsMasked : Prop :=
  ∀ (k k2 : Byte) (fa fb : Word) (s : State),
    exec (.vqCellD k fa) s = exec (.vqCellD (k &&& 0x0F#8) fa) s ∧
    exec (.vqCellSp k k2 fa fb) s = exec (.vqCellSp (k &&& 0x0F#8) (k2 &&& 0x0F#8) fa fb) s ∧
    ∀ n1 : Nat, floatClass hardware fa = .finite → IsRoundAway ((realOf hardware fa).toRat * 500) n1 → n1 ≤ 4095 →
      (∃ rsp : Response, rsp.st = 0 ∧ exec (.vqCellD k fa) s = .next ⟨s.ctx, s.inputs, rsp :: s.responses⟩) ∧
      ∀ n2 : Nat, floatClass hardware fb = .finite → IsRoundAway ((realOf hardware fb).toRat * 500) n2 → n2 ≤ 4095 →
        ∃ rsp : Response, rsp.st = 0 ∧
          exec (.vqCellSp k k2 fa fb) s = .next ⟨s.ctx, s.inputs, rsp :: s.responses⟩

/-- R240 from the host's side: where the host keeps the id (and count) at most 15, a packed result gives it back
whole. -/
def Obligations.CellIdWithinDutyComesThrough : Prop :=
  ∀ (k k2 : Byte) (fa fb : Word) (s t : State) (rsp : Response), rsp.st = 0 → t.responses = rsp :: s.responses →
    (Instr.meetsHostDuties (.vqCellD k fa) = true → exec (.vqCellD k fa) s = .next t →
      rsp.rk.toNat / 16 = k.toNat) ∧
    (Instr.meetsHostDuties (.vqCellSp k k2 fa fb) = true → exec (.vqCellSp k k2 fa fb) s = .next t →
      rsp.rz.toNat % 16 = k.toNat ∧ rsp.rz.toNat / 16 % 16 = k2.toNat)

/-! ### DF -/

/-- `DF.ENCODE` (R130, R131, R132): the markers and the id unescaped, each data byte escaped, low byte first, the
unused bytes 0, the length 5, 6 or 7 by the number of escapes (R62). -/
def Obligations.DfEncodeEmitsEscapedFrame : Prop :=
  ∀ (k : Byte) (x : Half) (s : State),
    let special : Byte → Bool := fun b => b == 0x5E#8 || b == 0x5D#8
    let e : Byte → List Byte := fun b =>
      if b = 0x5E#8 then [0x5D#8, 0x3E#8] else if b = 0x5D#8 then [0x5D#8, 0x3D#8] else [b]
    let b0 : Byte := x.extractLsb' 0 8
    let b1 : Byte := x.extractLsb' 8 8
    ∃ (p : ByteVec) (n : BitVec 4),
      exec (.dfEncode k x) s = .next ⟨s.ctx, s.inputs, { rpk := p, rlen := n } :: s.responses⟩ ∧
      n.toNat = 5 + (special b0).toNat + (special b1).toNat ∧
      ∀ i < 8, byteAt p i = ([0x5E#8, k] ++ e b0 ++ e b1 ++ [0x5E#8]).getD i 0

/-- The 14 edges of R133, each as what `DF.FEED` does: the context after, and the response. -/
def Obligations.FeedFollowsTheFourteenEdges : Prop :=
  ∀ (ins : List Input) (rs : List Response) (sl : BitVec 1) (id lo hi b : Byte),
    exec (.dfFeed 0x5E) ⟨⟨.waitStart, sl, id, lo, hi⟩, ins, rs⟩ = .next ⟨⟨.readId, 0, 0, 0, 0⟩, ins, {} :: rs⟩ ∧
    (b ≠ 0x5E → exec (.dfFeed b) ⟨⟨.waitStart, sl, id, lo, hi⟩, ins, rs⟩ =
      .next ⟨⟨.waitStart, 0, 0, 0, 0⟩, ins, {} :: rs⟩) ∧
    exec (.dfFeed b) ⟨⟨.readId, sl, id, lo, hi⟩, ins, rs⟩ = .next ⟨⟨.readDataLow, 0, b, 0, 0⟩, ins, {} :: rs⟩ ∧
    exec (.dfFeed 0x5D) ⟨⟨.readDataLow, sl, id, lo, hi⟩, ins, rs⟩ =
      .next ⟨⟨.escapePending, 0, id, 0, 0⟩, ins, {} :: rs⟩ ∧
    (b ≠ 0x5D → exec (.dfFeed b) ⟨⟨.readDataLow, sl, id, lo, hi⟩, ins, rs⟩ =
      .next ⟨⟨.readDataHigh, 0, id, b, 0⟩, ins, {} :: rs⟩) ∧
    exec (.dfFeed 0x5D) ⟨⟨.readDataHigh, sl, id, lo, hi⟩, ins, rs⟩ =
      .next ⟨⟨.escapePending, 1, id, lo, 0⟩, ins, {} :: rs⟩ ∧
    (b ≠ 0x5D → exec (.dfFeed b) ⟨⟨.readDataHigh, sl, id, lo, hi⟩, ins, rs⟩ =
      .next ⟨⟨.waitEnd, 0, id, lo, b⟩, ins, {} :: rs⟩) ∧
    exec (.dfFeed 0x3E) ⟨⟨.escapePending, 0, id, lo, hi⟩, ins, rs⟩ =
      .next ⟨⟨.readDataHigh, 0, id, 0x5E, 0⟩, ins, {} :: rs⟩ ∧
    exec (.dfFeed 0x3D) ⟨⟨.escapePending, 0, id, lo, hi⟩, ins, rs⟩ =
      .next ⟨⟨.readDataHigh, 0, id, 0x5D, 0⟩, ins, {} :: rs⟩ ∧
    exec (.dfFeed 0x3E) ⟨⟨.escapePending, 1, id, lo, hi⟩, ins, rs⟩ =
      .next ⟨⟨.waitEnd, 0, id, lo, 0x5E⟩, ins, {} :: rs⟩ ∧
    exec (.dfFeed 0x3D) ⟨⟨.escapePending, 1, id, lo, hi⟩, ins, rs⟩ =
      .next ⟨⟨.waitEnd, 0, id, lo, 0x5D⟩, ins, {} :: rs⟩ ∧
    (b ≠ 0x3E → b ≠ 0x3D → exec (.dfFeed b) ⟨⟨.escapePending, sl, id, lo, hi⟩, ins, rs⟩ =
      .next ⟨⟨.waitStart, 0, 0, 0, 0⟩, ins, { st := 1 } :: rs⟩) ∧
    exec (.dfFeed 0x5E) ⟨⟨.waitEnd, sl, id, lo, hi⟩, ins, rs⟩ =
      .next ⟨⟨.waitStart, 0, 0, 0, 0⟩, ins, { ev := 1, rk := id, rx := hi ++ lo } :: rs⟩ ∧
    (b ≠ 0x5E → exec (.dfFeed b) ⟨⟨.waitEnd, sl, id, lo, hi⟩, ins, rs⟩ =
      .next ⟨⟨.waitStart, 0, 0, 0, 0⟩, ins, { st := 1 } :: rs⟩)

/-- R136, R201: `DF.FEED`, and no other operation, raises `FramingError`, in exactly two situations; then the
context is cleared, the byte consumed and the response otherwise 0; in every other situation `DF.FEED` returns `OK`;
no other error changes state. -/
def Obligations.FramingErrorHasExactlyTwoCauses : Prop :=
  (∀ (k : Byte) (s : State), ∃ (t : State) (rsp : Response),
    exec (.dfFeed k) s = .next t ∧ t.inputs = s.inputs ∧ t.responses = rsp :: s.responses ∧
    (rsp.st = 1 ↔ (s.ctx.state = .escapePending ∧ k ≠ 0x3E ∧ k ≠ 0x3D) ∨ (s.ctx.state = .waitEnd ∧ k ≠ 0x5E)) ∧
    (rsp.st = 1 → t.ctx = ⟨.waitStart, 0, 0, 0, 0⟩ ∧ rsp = { st := 1 }) ∧
    (rsp.st ≠ 1 → rsp.st = 0)) ∧
  (∀ (i : Instr) (s t : State) (rsp : Response), exec i s = .next t → t.responses = rsp :: s.responses →
    (rsp.st = 1 → ∃ k, i = .dfFeed k) ∧ (rsp.st ≠ 0 → rsp.st ≠ 1 → t.ctx = s.ctx))

/-- R135: a frame is emitted by the `DF.FEED` of the byte `0x5E` in `WAIT_END` and by no other request; it carries
the registers as they stood, and the context after it is clear. -/
def Obligations.FrameEventOnlyAtEndMarker : Prop :=
  (∀ (i : Instr) (s t : State) (rsp : Response), exec i s = .next t → t.responses = rsp :: s.responses →
    rsp.ev = 1 → ∃ k, i = .dfFeed k) ∧
  ∀ (k : Byte) (s : State), ∃ (t : State) (rsp : Response),
    exec (.dfFeed k) s = .next t ∧ t.inputs = s.inputs ∧ t.responses = rsp :: s.responses ∧
    (rsp.ev = 1 ↔ s.ctx.state = .waitEnd ∧ k = 0x5E) ∧
    (rsp.ev = 1 → rsp = { ev := 1, rk := s.ctx.id, rx := s.ctx.dhi ++ s.ctx.dlo } ∧
      t.ctx = ⟨.waitStart, 0, 0, 0, 0⟩)

/-- R137: feeding the bytes that `DF.ENCODE` returns to a context in `WAIT_START` gives no error, exactly one frame
event, on the last byte, with the id and the value encoded, and leaves the context clear. -/
def Obligations.DeframeInvertsFrame : Prop :=
  ∀ (id : Byte) (v : Half) (s : State), ∃ rsp : Response,
    exec (.dfEncode id v) s = .next ⟨s.ctx, s.inputs, rsp :: s.responses⟩ ∧
    ∀ (c : Context) (rest : List Input) (rs : List Response) (bs : List Byte), c.state = .waitStart →
      bs = (vecBytes rsp.rpk).take rsp.rlen.toNat →
        Host.Core.run Sys2Proof.core bs.length (⟨c, feedAll bs ++ rest, rs⟩ : State) =
          .next ⟨⟨.waitStart, 0, 0, 0, 0⟩, rest,
            { ev := 1, rk := id, rx := v } :: (List.replicate (bs.length - 1) ({} : Response) ++ rs)⟩

/-- Any sequence of frames, one right after the other, is delivered whole and in order, with no error (R65, R138
(a)). -/
def Obligations.FrameSequencesAreDelivered : Prop :=
  ∀ (fs : List (Byte × Half)) (rest : List Input) (rs : List Response) (bs : List Byte),
    bs = fs.flatMap (fun f => frame hardware f.1 f.2) →
      ∃ new : List Response,
        Host.Core.run Sys2Proof.core bs.length (⟨Context.clear, feedAll bs ++ rest, rs⟩ : State) =
          .next ⟨Context.clear, rest, new ++ rs⟩ ∧
        (∀ r ∈ new, r.st = 0) ∧
        new.filter (fun r => r.ev == 1) = (fs.map fun f => { ev := 1, rk := f.1, rx := f.2 }).reverse

/-- R138 (b), the spec's own reading D17: of two frames that share one marker the second is not emitted: its bytes
are skipped and the last marker starts a new frame. -/
def Obligations.SharedMarkerLosesSecondFrame : Prop :=
  ∀ (id b0 b1 id' b0' b1' : Byte) (rest : List Input) (rs : List Response),
    b0 ≠ 0x5D → b1 ≠ 0x5D → id' ≠ 0x5E → b0' ≠ 0x5E → b1' ≠ 0x5E →
      Host.Core.run Sys2Proof.core 9
          (⟨Context.clear, feedAll [0x5E, id, b0, b1, 0x5E, id', b0', b1', 0x5E] ++ rest, rs⟩ : State) =
        .next ⟨⟨.readId, 0, 0, 0, 0⟩, rest,
          List.replicate 4 ({} : Response) ++ { ev := 1, rk := id, rx := b1 ++ b0 } :: (List.replicate 4 ({} : Response) ++ rs)⟩

/-- R65, R138: in `WAIT_START` every byte that is not a start marker is skipped without an error or an event. -/
def Obligations.IdleBytesAreSkipped : Prop :=
  ∀ (bs : List Byte) (rest : List Input) (rs : List Response), (∀ b ∈ bs, b ≠ 0x5E) →
    Host.Core.run Sys2Proof.core bs.length (⟨Context.clear, feedAll bs ++ rest, rs⟩ : State) =
      .next ⟨Context.clear, rest, List.replicate bs.length ({} : Response) ++ rs⟩

/-- `DF.RESET` (R140, the spec's own choice, D19): the context is cleared, every result field is 0; the external
reset leaves the same context (R232). -/
def Obligations.DfResetClearsContext : Prop :=
  ∀ s : State,
    exec .dfReset s = .next ⟨⟨.waitStart, 0, 0, 0, 0⟩, s.inputs, {} :: s.responses⟩ ∧
    s.hardReset = ⟨⟨.waitStart, 0, 0, 0, 0⟩, s.inputs, s.responses⟩

/-- `DF.GETSTATE` (R141, R78, R23; the layout is the spec's own, D19): the token's fields are the registers, bits
7..4 are 0, nothing changes. -/
def Obligations.GetStateReturnsToken : Prop :=
  ∀ (s : State) (code : Nat),
    (s.ctx.state, code) ∈ [(DfState.waitStart, 0), (.readId, 1), (.readDataLow, 2), (.readDataHigh, 3),
      (.escapePending, 4), (.waitEnd, 5)] →
    exec .dfGetState s = .next ⟨s.ctx, s.inputs,
      { rz := BitVec.ofNat 32 (code + 8 * s.ctx.slot.toNat + 256 * s.ctx.id.toNat + 65536 * s.ctx.dlo.toNat +
          16777216 * s.ctx.dhi.toNat) } :: s.responses⟩

/-- `DF.SETSTATE` (R142, the spec's own operation, D19): a token with a legal state code replaces the context field
by field, bits 7..4 ignored; the codes 6 and 7 are refused with the context unchanged. -/
def Obligations.SetStateLoadsToken : Prop :=
  ∀ (z : Word) (s : State),
    (∀ st : DfState,
      (st, z.toNat % 8) ∈ [(DfState.waitStart, 0), (.readId, 1), (.readDataLow, 2), (.readDataHigh, 3),
        (.escapePending, 4), (.waitEnd, 5)] →
      exec (.dfSetState z) s = .next ⟨⟨st, BitVec.ofNat 1 (z.toNat / 8), BitVec.ofNat 8 (z.toNat / 256),
        BitVec.ofNat 8 (z.toNat / 65536), BitVec.ofNat 8 (z.toNat / 16777216)⟩, s.inputs, {} :: s.responses⟩) ∧
    (5 < z.toNat % 8 →
      exec (.dfSetState z) s = .next ⟨s.ctx, s.inputs, { st := 3 } :: s.responses⟩)

/-- Saving and restoring (R32, R142): loading the token that `DF.GETSTATE` returns changes nothing, and
`DF.GETSTATE` after an accepted `DF.SETSTATE` returns the token with bits 7..4 cleared. -/
def Obligations.TokenSaveAndRestore : Prop :=
  (∀ s : State, ∃ token : Word,
    exec .dfGetState s = .next ⟨s.ctx, s.inputs, { rz := token } :: s.responses⟩ ∧
    ∀ t : State, exec (.dfSetState token) t = .next ⟨s.ctx, t.inputs, {} :: t.responses⟩) ∧
  (∀ (z : Word) (s : State), z.toNat % 8 ≤ 5 → ∃ t : State, exec (.dfSetState z) s = .next t ∧
    exec .dfGetState t = .next ⟨t.ctx, t.inputs, { rz := z &&& 0xFFFFFF0F#32 } :: t.responses⟩)

/-! ### CK -/

/-- The closed form of `Fold1` (R160): the sum where it fits 8 bits, else the sum less 255. -/
def Obligations.FoldStepIsEndAroundCarry : Prop :=
  ∀ crc b : Byte, (fold1 crc b).toNat =
    if crc.toNat + b.toNat ≤ 255 then crc.toNat + b.toNat else crc.toNat + b.toNat - 255

/-- The algebra of the fold, (a) to (e) of R165. -/
def Obligations.FoldAlgebra : Prop :=
  ((∀ a b : Byte, fold1 a b = fold1 b a) ∧ (∀ a b c : Byte, fold1 (fold1 a b) c = fold1 a (fold1 b c)) ∧
    (∀ p q : List Byte, p.Perm q → foldSeq hardware p = foldSeq hardware q)) ∧
  ((∀ c : Byte, fold1 c 0x00 = c) ∧ fold1 0 0xFF = 0xFF ∧ (∀ c : Byte, c ≠ 0 → fold1 c 0xFF = c)) ∧
  ((∀ c b : Byte, fold1 c b = 0 ↔ c = 0 ∧ b = 0) ∧
    (∀ p : List Byte, foldSeq hardware p = 0 ↔ ∀ b ∈ p, b = 0)) ∧
  (∀ p : List Byte, (foldSeq hardware p).toNat = foldOfSum p) ∧
  ((∀ c : Byte, fold1 c (~~~c) = 0xFF) ∧
    (∀ p : List Byte, foldSeq hardware (p ++ [~~~(foldSeq hardware p)]) = 0xFF))

/-- `CK.SUM` (R162): the fold of the first `K` bytes, given by their sum (R165 (d)), and its complement; more than 8
bytes are refused. -/
def Obligations.CkSumFoldsFirstBytes : Prop :=
  ∀ (pk : ByteVec) (k : Byte) (s : State),
    (k.toNat ≤ 8 → ∃ crc : Byte, crc.toNat = foldOfSum ((vecBytes pk).take k.toNat) ∧
      exec (.ckSum pk k) s = .next ⟨s.ctx, s.inputs, { rk := crc, rk2 := ~~~crc } :: s.responses⟩) ∧
    (8 < k.toNat → exec (.ckSum pk k) s = .next ⟨s.ctx, s.inputs, { st := 3 } :: s.responses⟩)

/-- `CK.VERIFY` (R163, R164): the fold of bytes 1 to 7 and whether it is `0xFF`, never an error. -/
def Obligations.CkVerifyFoldsBytesOneToSeven : Prop :=
  ∀ (pk : ByteVec) (s : State), ∃ f : Byte, f.toNat = foldOfSum ((vecBytes pk).drop 1) ∧
    exec (.ckVerify pk) s = .next ⟨s.ctx, s.inputs,
      { rk := f, rk2 := if f.toNat = 255 then 1 else 0 } :: s.responses⟩

/-- R166: what the check says of a packet that `SP.ENCODE` built: accepted for type `0x00`, for type `0xFF` unless
id and value are 0, refused with fold `~type` for every other type; with `VERIFY_FIRST = 0` every built packet is
accepted. -/
def Obligations.VerifyOfBuiltPackets : Prop :=
  ∀ (type : Byte) (id : Half) (value : Word) (s : State), ∃ p : ByteVec,
    exec (.spEncode type id value) s = .next ⟨s.ctx, s.inputs, { rpk := p, rlen := 8 } :: s.responses⟩ ∧
    (type = 0x00 → exec (.ckVerify p) s =
      .next ⟨s.ctx, s.inputs, { rk := 0xFF, rk2 := 1 } :: s.responses⟩) ∧
    (type = 0xFF → ¬ (id = 0 ∧ value = 0) → exec (.ckVerify p) s =
      .next ⟨s.ctx, s.inputs, { rk := 0xFF, rk2 := 1 } :: s.responses⟩) ∧
    (type = 0xFF → id = 0 ∧ value = 0 → exec (.ckVerify p) s =
      .next ⟨s.ctx, s.inputs, { rk := 0x00, rk2 := 0 } :: s.responses⟩) ∧
    (type ≠ 0x00 → type ≠ 0xFF → exec (.ckVerify p) s =
      .next ⟨s.ctx, s.inputs, { rk := ~~~type, rk2 := 0 } :: s.responses⟩) ∧
    verify { hardware with verifyFirst := 0 } (vecBytes p) = true

/-- R167: what the check detects and what it does not: (a) every one-bit flip in bytes 1 to 7, (b) nothing in byte
0, (c) no exchange of `0x00` and `0xFF` beside another non-zero byte, (d) no reordering. -/
def Obligations.VerifyDetection : Prop :=
  (∀ (pk : ByteVec) (n : Nat), verify hardware (vecBytes pk) = true → 8 ≤ n → n < 64 →
    verify hardware (vecBytes (pk ^^^ (1#64 <<< n))) = false) ∧
  (∀ pk pk' : ByteVec, (vecBytes pk).drop 1 = (vecBytes pk').drop 1 →
    verify hardware (vecBytes pk) = verify hardware (vecBytes pk')) ∧
  (∀ (p : List Byte) (m n : Nat) (hn : n < p.length), p.length = 8 → 1 ≤ m → m ≤ 7 → 1 ≤ n → m ≠ n →
    p[n] ≠ 0 → verifyFold hardware (p.set m 0xFF) = verifyFold hardware (p.set m 0x00)) ∧
  (∀ p q : List Byte, p.length = 8 → q.length = 8 → (p.drop 1).Perm (q.drop 1) →
    verify hardware p = verify hardware q)

/-! ### SP -/

/-- `SP.ENCODE` (R175, R176): type, id and value little-endian, then the complement of the fold of bytes 0 to 6,
given by their sum; every operand is accepted. -/
def Obligations.SpEncodeBuildsPacket : Prop :=
  ∀ (k : Byte) (y : Half) (z : Word) (s : State), ∃ (p : ByteVec) (chk : Byte),
    exec (.spEncode k y z) s = .next ⟨s.ctx, s.inputs, { rpk := p, rlen := 8 } :: s.responses⟩ ∧
    vecBytes p = [k, y.extractLsb' 0 8, y.extractLsb' 8 8, z.extractLsb' 0 8, z.extractLsb' 8 8,
      z.extractLsb' 16 8, z.extractLsb' 24 8, chk] ∧
    chk.toNat = 255 - foldOfSum ((vecBytes p).take 7)

/-- `SP.ENCODE10` and `SP.EMPTY` (R177, R178, R84) build packets, those of `SP.ENCODE` with type `0x10` and with
three zeros; the latter is `00 00 00 00 00 00 00 FF`. -/
def Obligations.SpShorthandsBuildPackets : Prop :=
  ∀ (y : Half) (z : Word) (s : State),
    (∃ p : ByteVec,
      exec (.spEncode10 y z) s = .next ⟨s.ctx, s.inputs, { rpk := p, rlen := 8 } :: s.responses⟩ ∧
      exec (.spEncode 0x10 y z) s = .next ⟨s.ctx, s.inputs, { rpk := p, rlen := 8 } :: s.responses⟩ ∧
      byteAt p 0 = 0x10) ∧
    exec .spEmpty s =
      .next ⟨s.ctx, s.inputs, { rpk := 0xFF00000000000000#64, rlen := 8 } :: s.responses⟩ ∧
    exec (.spEncode 0 0 0) s = exec .spEmpty s

/-- `SP.DECODE` (R179, R181, R202): the little-endian fields of a packet whose bytes 1 to 7 fold to `0xFF`, whatever
its type byte; any other packet is a checksum error. -/
def Obligations.SpDecodeChecksThenExtracts : Prop :=
  ∀ (pk : ByteVec) (s : State),
    (foldOfSum ((vecBytes pk).drop 1) = 255 → exec (.spDecode pk) s = .next ⟨s.ctx, s.inputs,
      { rk := byteAt pk 0, ry := byteAt pk 2 ++ byteAt pk 1,
        rz := byteAt pk 6 ++ byteAt pk 5 ++ byteAt pk 4 ++ byteAt pk 3 } :: s.responses⟩) ∧
    (foldOfSum ((vecBytes pk).drop 1) ≠ 255 → exec (.spDecode pk) s =
      .next ⟨s.ctx, s.inputs, { st := 2 } :: s.responses⟩)

/-- R180: decoding what `SP.ENCODE` built gives the fields back exactly for type `0x00`, and for type `0xFF` unless
id and value are 0; every other type, `0x10` among them, is a checksum error. With `VERIFY_FIRST = 0` every triple
comes back. -/
def Obligations.SpDecodeOfSpEncode : Prop :=
  ∀ (type : Byte) (id : Half) (value : Word) (s : State), ∃ p : ByteVec,
    exec (.spEncode type id value) s = .next ⟨s.ctx, s.inputs, { rpk := p, rlen := 8 } :: s.responses⟩ ∧
    exec (.spDecode p) s =
      (if type = 0x00 ∨ (type = 0xFF ∧ ¬ (id = 0 ∧ value = 0)) then
        .next ⟨s.ctx, s.inputs, { rk := type, ry := id, rz := value } :: s.responses⟩
      else .next ⟨s.ctx, s.inputs, { st := 2 } :: s.responses⟩) ∧
    spDecode { hardware with verifyFirst := 0 } p = .ok { rk := type, ry := id, rz := value }
end

