-- ==== Sys2Proof/Laws/Params.lean ====
section
/-! SUPPORT. The value of each parameter of this hardware (00_scope.md R6), one lemma per field. -/

namespace Sys2Proof.Machine

@[simp] theorem hardware_dMark : hardware.dMark = 0x5E#8 := rfl
@[simp] theorem hardware_dEsc : hardware.dEsc = 0x5D#8 := rfl
@[simp] theorem hardware_dEscMark : hardware.dEscMark = 0x3E#8 := rfl
@[simp] theorem hardware_dEscEsc : hardware.dEscEsc = 0x3D#8 := rfl
@[simp] theorem hardware_spLen : hardware.spLen = 8 := rfl
@[simp] theorem hardware_spTypeData : hardware.spTypeData = 0x10#8 := rfl
@[simp] theorem hardware_spEmptyChk : hardware.spEmptyChk = 0xFF#8 := rfl
@[simp] theorem hardware_spPollMark : hardware.spPollMark = 0x7E#8 := rfl
@[simp] theorem hardware_ckInit : hardware.ckInit = 0#8 := rfl
@[simp] theorem hardware_ckGood : hardware.ckGood = 0xFF#8 := rfl
@[simp] theorem hardware_encodeFirst : hardware.encodeFirst = 0 := rfl
@[simp] theorem hardware_encodeLast : hardware.encodeLast = 6 := rfl
@[simp] theorem hardware_verifyFirst : hardware.verifyFirst = 1 := rfl
@[simp] theorem hardware_verifyLast : hardware.verifyLast = 7 := rfl
@[simp] theorem hardware_cellScale : hardware.cellScale = 500 := rfl
@[simp] theorem hardware_cellBits : hardware.cellBits = 12 := rfl
@[simp] theorem hardware_cellIdBits : hardware.cellIdBits = 4 := rfl
@[simp] theorem hardware_dmsSecNum : hardware.dmsSecNum = 6 := rfl
@[simp] theorem hardware_dmsSecDen : hardware.dmsSecDen = 1000 := rfl
@[simp] theorem hardware_scaleBits : hardware.scaleBits = 16 := rfl
@[simp] theorem hardware_nCtx : hardware.nCtx = 1 := rfl
@[simp] theorem hardware_divMod : hardware.divMod = .truncating := rfl
@[simp] theorem hardware_spCellLayout : hardware.spCellLayout = ⟨0, 4, 8, 20⟩ := rfl

end Sys2Proof.Machine
end

