-- ==== Sys2Proof/Laws/State.lean ====
section
/-! SUPPORT. One lemma per field of State per update (Machine/Ops.lean), so that no proof unfolds a record
update. -/

namespace Sys2Proof.Machine

variable (s : State) (r : Response) (e : Error) (c : Context) (x : Except Error Response)

@[simp] theorem State.respond_ctx : (s.respond r).ctx = s.ctx := rfl
@[simp] theorem State.respond_inputs : (s.respond r).inputs = s.inputs := rfl
@[simp] theorem State.respond_responses : (s.respond r).responses = r :: s.responses := rfl

@[simp] theorem State.raise_ctx : (s.raise e).ctx = s.ctx := rfl
@[simp] theorem State.raise_inputs : (s.raise e).inputs = s.inputs := rfl
@[simp] theorem State.raise_responses : (s.raise e).responses = Response.error e :: s.responses := rfl

@[simp] theorem State.finish_ok : s.finish (.ok r) = s.respond r := rfl
@[simp] theorem State.finish_error : s.finish (.error e) = s.raise e := rfl
@[simp] theorem State.finish_ctx : (s.finish x).ctx = s.ctx := by cases x <;> rfl
@[simp] theorem State.finish_inputs : (s.finish x).inputs = s.inputs := by cases x <;> rfl

@[simp] theorem State.setContext_ctx : (s.setContext c).ctx = c := rfl
@[simp] theorem State.setContext_inputs : (s.setContext c).inputs = s.inputs := rfl
@[simp] theorem State.setContext_responses : (s.setContext c).responses = s.responses := rfl
@[simp] theorem State.setContext_self : s.setContext s.ctx = s := rfl

@[simp] theorem State.hardReset_ctx : s.hardReset.ctx = Context.clear := rfl
@[simp] theorem State.hardReset_inputs : s.hardReset.inputs = s.inputs := rfl
@[simp] theorem State.hardReset_responses : s.hardReset.responses = s.responses := rfl

@[simp] theorem State.dropInput_ctx : s.dropInput.ctx = s.ctx := rfl
@[simp] theorem State.dropInput_inputs : s.dropInput.inputs = s.inputs.tail := rfl
@[simp] theorem State.dropInput_responses : s.dropInput.responses = s.responses := rfl

@[simp] theorem State.answerReserved_ctx : s.answerReserved.ctx = s.ctx := rfl
@[simp] theorem State.answerReserved_inputs : s.answerReserved.inputs = s.inputs := rfl
@[simp] theorem State.answerReserved_responses :
    s.answerReserved.responses = Response.error .illegalOp :: s.responses := rfl

@[simp] theorem State.reset_ctx : State.reset.ctx = Context.clear := rfl
@[simp] theorem State.reset_inputs : State.reset.inputs = [] := rfl
@[simp] theorem State.reset_responses : State.reset.responses = [] := rfl

/-- An operation ends in one of two ways: it returns its results or it raises one error (R200). -/
theorem State.finish_cases :
    (∃ r, x = .ok r ∧ s.finish x = s.respond r) ∨ (∃ e, x = .error e ∧ s.finish x = s.raise e) := by
  cases x with
  | ok r => exact .inl ⟨r, rfl, rfl⟩
  | error e => exact .inr ⟨e, rfl, rfl⟩

/-- The responses after an operation: exactly one is new. -/
theorem State.finish_responses :
    ∃ r, (s.finish x).responses = r :: s.responses ∧ (x = .ok r ∨ ∃ e, x = .error e ∧ r = Response.error e) := by
  cases x with
  | ok r => exact ⟨r, rfl, .inl rfl⟩
  | error e => exact ⟨Response.error e, rfl, .inr ⟨e, rfl, rfl⟩⟩

end Sys2Proof.Machine
end

