-- ==== Sys2Proof/Laws/Ops.lean ====
section
/-! SUPPORT. What the shared operations, one step and one operation can do, said once (Machine/Ops.lean,
Step.lean, Dispatch.lean). -/

namespace Sys2Proof.Machine

/-! ### The context token -/

theorem dfStateOfCode_code (st : DfState) : dfStateOfCode st.code = some st := by cases st <;> rfl

theorem dfStateOfCode_some {b : BitVec 3} {st : DfState} (h : dfStateOfCode b = some st) : st.code = b := by
  revert b st
  decide

theorem dfStateOfCode_none_iff (b : BitVec 3) : dfStateOfCode b = none ↔ 5 < b.toNat := by
  revert b
  decide

theorem Context.token_fields (c : Context) :
    c.token.extractLsb' 0 3 = c.state.code ∧ c.token.extractLsb' 3 1 = c.slot ∧
      c.token.extractLsb' 8 8 = c.id ∧ c.token.extractLsb' 16 8 = c.dlo ∧ c.token.extractLsb' 24 8 = c.dhi := by
  unfold Context.token
  refine ⟨?_, ?_, ?_, ?_, ?_⟩ <;>
    · ext i hi
      simp only [BitVec.getElem_extractLsb', BitVec.getLsbD_append]
      repeat' split
      all_goals first
        | omega
        | (rw [BitVec.getLsbD_eq_getElem (by omega)]; congr 1; omega)

/-- A token loads the context it was taken from (R78). -/
theorem contextOfToken_token (c : Context) : contextOfToken c.token = some c := by
  obtain ⟨h1, h2, h3, h4, h5⟩ := c.token_fields
  simp only [contextOfToken, h1, h2, h3, h4, h5, dfStateOfCode_code, Option.map_some]

/-- A token is refused exactly for the state codes 6 and 7 (R142). -/
theorem contextOfToken_none_iff (z : Word) : contextOfToken z = none ↔ 5 < (z.extractLsb' 0 3).toNat := by
  rw [contextOfToken, Option.map_eq_none_iff, dfStateOfCode_none_iff]

/-- The host duty on a token (R243): it is the token of a canonical context. -/
theorem meetsHostDuties_dfSetState (z : Word) :
    Instr.meetsHostDuties (.dfSetState z) = true ↔ ∃ c : Context, c.canonical = true ∧ c.token = z := by
  simp only [Instr.meetsHostDuties, Option.any_eq_true, Bool.and_eq_true, beq_iff_eq]
  constructor
  · rintro ⟨c, -, h1, h2⟩
    exact ⟨c, h1, h2⟩
  · rintro ⟨c, h1, rfl⟩
    exact ⟨c, contextOfToken_token c, h1, rfl⟩

/-! ### One operation -/

/-- Every operation writes the context (or leaves it) and then answers once; no other effect exists. -/
theorem exec_finishes (i : Instr) (s : State) :
    ∃ (c : Context) (x : Except Error Response), exec i s = .next ((s.setContext c).finish x) := by
  cases i with
  | vqSplit fa mul => exact ⟨s.ctx, vqSplit hardware fa mul, rfl⟩
  | vqJoin x y mul => exact ⟨s.ctx, vqJoin hardware x y mul, rfl⟩
  | vqDms x y => exact ⟨s.ctx, vqDms hardware x y, rfl⟩
  | vqQuant fa mul div k2 => exact ⟨s.ctx, vqQuant hardware fa mul div k2, rfl⟩
  | vqDequant z mul div k2 => exact ⟨s.ctx, vqDequant hardware z mul div k2, rfl⟩
  | vqCellD k fa => exact ⟨s.ctx, vqCellD hardware k fa, rfl⟩
  | vqCellSp k k2 fa fb => exact ⟨s.ctx, vqCellSp hardware k k2 fa fb, rfl⟩
  | dfEncode k x => exact ⟨s.ctx, dfEncode hardware k x, rfl⟩
  | dfFeed k => exact ⟨_, _, rfl⟩
  | dfReset => exact ⟨Context.clear, .ok {}, rfl⟩
  | dfGetState => exact ⟨s.ctx, .ok { rz := s.ctx.token }, rfl⟩
  | dfSetState z =>
    cases h : contextOfToken z with
    | none => exact ⟨s.ctx, .error .argumentRange, by simp [exec, execDfSetState, h]⟩
    | some c => exact ⟨c, .ok {}, by simp [exec, execDfSetState, h]⟩
  | ckSum pk k => exact ⟨s.ctx, ckSum hardware pk k, rfl⟩
  | ckVerify pk => exact ⟨s.ctx, ckVerify hardware pk, rfl⟩
  | spEncode k y z => exact ⟨s.ctx, spEncode hardware k y z, rfl⟩
  | spEncode10 y z => exact ⟨s.ctx, spEncode10 hardware y z, rfl⟩
  | spEmpty => exact ⟨s.ctx, spEmpty hardware, rfl⟩
  | spDecode pk => exact ⟨s.ctx, spDecode hardware pk, rfl⟩

/-! ### One step -/

/-- What a step can do: idle, take a reset, execute the request's operation, or answer a reserved code. -/
theorem step_cases (s : State) :
    (s.inputs = [] ∧ step s = .next s) ∨
    (∃ rest, s.inputs = .reset :: rest ∧ step s = .next s.dropInput.hardReset) ∨
    (∃ r rest i, s.inputs = .request r :: rest ∧ decode r = .instr i ∧ step s = exec i s.dropInput) ∨
    (∃ r rest op, s.inputs = .request r :: rest ∧ decode r = .reserved op ∧
      step s = .next s.dropInput.answerReserved) := by
  unfold step
  cases h : s.inputs with
  | nil => exact .inl ⟨rfl, rfl⟩
  | cons x rest =>
    cases x with
    | reset => exact .inr (.inl ⟨rest, rfl, rfl⟩)
    | request r =>
      cases hd : decode r with
      | instr i => exact .inr (.inr (.inl ⟨r, rest, i, rfl, hd, by simp [hd]⟩))
      | reserved op => exact .inr (.inr (.inr ⟨r, rest, op, rfl, hd, by simp [hd]⟩))

theorem decode_feed (b : Byte) : decode { Request.blank 0x11 with k := b } = .instr (.dfFeed b) := rfl

@[simp] theorem feedAll_nil : feedAll [] = [] := rfl

@[simp] theorem feedAll_cons (b : Byte) (bs : List Byte) :
    feedAll (b :: bs) = .request { Request.blank 0x11 with k := b } :: feedAll bs := rfl

@[simp] theorem feedAll_append (as bs : List Byte) : feedAll (as ++ bs) = feedAll as ++ feedAll bs :=
  List.map_append

/-- A step whose next input feeds a byte is `DF.FEED` of that byte. -/
theorem step_feed (c : Context) (b : Byte) (bs : List Byte) (rest : List Input) (rs : List Response) :
    step ⟨c, feedAll (b :: bs) ++ rest, rs⟩ = execDfFeed b ⟨c, feedAll bs ++ rest, rs⟩ := rfl

/-- The context, the inputs and the responses after one byte is fed (R134). -/
theorem execDfFeed_eq (b : Byte) (s : State) :
    execDfFeed b s = .next ((s.setContext (dFeed hardware s.ctx b).1).finish
      (eventResult (dFeed hardware s.ctx b).2)) := rfl

/-- A run splits at any step count. -/
theorem run_add (m n : Nat) (s t : State) (h : Host.Core.run Sys2Proof.core m s = .next t) :
    Host.Core.run Sys2Proof.core (m + n) s = Host.Core.run Sys2Proof.core n t := by
  induction m generalizing s with
  | zero =>
    simp only [Host.Core.run] at h
    cases h
    rw [Nat.zero_add]
  | succ m ih =>
    rw [Nat.add_right_comm]
    simp only [Host.Core.run] at h ⊢
    split at h
    · exact ih _ h
    · cases h
    · cases h

end Sys2Proof.Machine
end

