-- ==== Sys2Proof/Laws/DFrame.lean ====
section
/-! SUPPORT. The edges of the deframer (41_d_frame_codec.md R133) as equations for this hardware. -/

namespace Sys2Proof.Machine

variable (sl : BitVec 1) (i lo hi b : Byte)

@[simp] theorem dFeed_waitStart :
    dFeed hardware ⟨.waitStart, sl, i, lo, hi⟩ b =
      if b = 0x5E#8 then (⟨.readId, 0, 0, 0, 0⟩, .none) else (Context.clear, .none) := rfl

@[simp] theorem dFeed_readId :
    dFeed hardware ⟨.readId, sl, i, lo, hi⟩ b = (⟨.readDataLow, 0, b, 0, 0⟩, .none) := rfl

@[simp] theorem dFeed_readDataLow :
    dFeed hardware ⟨.readDataLow, sl, i, lo, hi⟩ b =
      if b = 0x5D#8 then (⟨.escapePending, 0, i, 0, 0⟩, .none) else (⟨.readDataHigh, 0, i, b, 0⟩, .none) := rfl

@[simp] theorem dFeed_readDataHigh :
    dFeed hardware ⟨.readDataHigh, sl, i, lo, hi⟩ b =
      if b = 0x5D#8 then (⟨.escapePending, 1, i, lo, 0⟩, .none) else (⟨.waitEnd, 0, i, lo, b⟩, .none) := rfl

@[simp] theorem dFeed_waitEnd :
    dFeed hardware ⟨.waitEnd, sl, i, lo, hi⟩ b =
      if b = 0x5E#8 then (Context.clear, .frame i (unle16 lo hi)) else (Context.clear, .framingError) := rfl

theorem unescape_hardware : unescape hardware b =
    if b = 0x3E#8 then some 0x5E#8 else if b = 0x3D#8 then some 0x5D#8 else none := rfl

@[simp] theorem dFeed_escape_mark_low :
    dFeed hardware ⟨.escapePending, 0, i, lo, hi⟩ 0x3E#8 = (⟨.readDataHigh, 0, i, 0x5E#8, 0⟩, .none) := rfl

@[simp] theorem dFeed_escape_esc_low :
    dFeed hardware ⟨.escapePending, 0, i, lo, hi⟩ 0x3D#8 = (⟨.readDataHigh, 0, i, 0x5D#8, 0⟩, .none) := rfl

@[simp] theorem dFeed_escape_mark_high :
    dFeed hardware ⟨.escapePending, 1, i, lo, hi⟩ 0x3E#8 = (⟨.waitEnd, 0, i, lo, 0x5E#8⟩, .none) := rfl

@[simp] theorem dFeed_escape_esc_high :
    dFeed hardware ⟨.escapePending, 1, i, lo, hi⟩ 0x3D#8 = (⟨.waitEnd, 0, i, lo, 0x5D#8⟩, .none) := rfl

theorem dFeed_escape_bad (h1 : b ≠ 0x3E#8) (h2 : b ≠ 0x3D#8) :
    dFeed hardware ⟨.escapePending, sl, i, lo, hi⟩ b = (Context.clear, .framingError) := by
  have h : unescape hardware b = none := by rw [unescape_hardware, if_neg h1, if_neg h2]
  simp only [dFeed, h]

theorem esc_hardware : esc hardware b =
    if b = 0x5E#8 then [0x5D#8, 0x3E#8] else if b = 0x5D#8 then [0x5D#8, 0x3D#8] else [b] := rfl

/-- Feeding the escape of a byte where the low data byte is expected stores that byte (R61, R133). -/
theorem esc_length : (esc hardware b).length = if b = 0x5E#8 ∨ b = 0x5D#8 then 2 else 1 := by
  rw [esc_hardware]
  split
  · simp [*]
  · split <;> simp_all

end Sys2Proof.Machine
end

