-- ==== Sys2Proof/Laws/Operands.lean ====
section
/-! SUPPORT. What the operand forms of Machine/Operands.lean give: byte vectors, exact rationals and their
rounding. -/

namespace Sys2Proof.Machine

/-! ### Byte vectors -/

theorem vecBytes_length (v : ByteVec) : (vecBytes v).length = 8 := rfl

theorem byteAt_vecOfBytes_cons_zero (b : Byte) (bs : List Byte) : byteAt (vecOfBytes (b :: bs)) 0 = b := by
  unfold byteAt vecOfBytes
  ext i hi
  have h1 : i < 64 := by omega
  have h2 : i < 8 := hi
  simp [BitVec.getElem_extractLsb', h1, h2]

theorem byteAt_vecOfBytes_cons_succ (b : Byte) (bs : List Byte) (i : Nat) (h : i < 7) :
    byteAt (vecOfBytes (b :: bs)) (i + 1) = byteAt (vecOfBytes bs) i := by
  unfold byteAt
  rw [vecOfBytes]
  ext j hj
  have h1 : 8 * (i + 1) + j < 64 := by omega
  have h2 : ¬ (8 * (i + 1) + j < 8) := by omega
  have h3 : 8 * (i + 1) + j - 8 = 8 * i + j := by omega
  have h4 : b.getLsbD (8 * (i + 1) + j) = false := BitVec.getLsbD_of_ge _ _ (by omega)
  rw [BitVec.getElem_extractLsb', BitVec.getElem_extractLsb', BitVec.getLsbD_or, BitVec.getLsbD_shiftLeft,
    BitVec.getLsbD_setWidth, h3, h4]
  simp [h1, h2]

/-- Byte `i` of the vector that holds a sequence is the sequence's byte `i`, and 0 beyond its end (R42, R72). -/
theorem byteAt_vecOfBytes (bs : List Byte) (i : Nat) (h : i < 8) : byteAt (vecOfBytes bs) i = bs.getD i 0 := by
  induction bs generalizing i with
  | nil => simp [vecOfBytes, byteAt]
  | cons b bs ih =>
    cases i with
    | zero => simp [byteAt_vecOfBytes_cons_zero]
    | succ i => rw [byteAt_vecOfBytes_cons_succ b bs i (by omega), ih i (by omega)]; simp

/-- Packing eight bytes and reading them back gives them back (R42). -/
theorem vecBytes_vecOfBytes (bs : List Byte) (h : bs.length = 8) : vecBytes (vecOfBytes bs) = bs := by
  apply List.ext_getElem
  · rw [vecBytes_length, h]
  · intro i h1 h2
    have h3 : i < 8 := h1
    have key : (vecBytes (vecOfBytes bs))[i] = byteAt (vecOfBytes bs) i := by
      interval_cases i <;> rfl
    refine key.trans ?_
    rw [byteAt_vecOfBytes bs i h3]
    simp [List.getD, h2]

/-! ### Exact rationals -/

theorem Frac.toRat_ofInt (i : Int) : (Frac.ofInt i).toRat = i := by simp [Frac.toRat, Frac.ofInt]

theorem Frac.toRat_add (a b : Frac) (ha : a.den ≠ 0) (hb : b.den ≠ 0) :
    (a.add b).toRat = a.toRat + b.toRat := by
  have ha' : (a.den : Rat) ≠ 0 := by exact_mod_cast ha
  have hb' : (b.den : Rat) ≠ 0 := by exact_mod_cast hb
  simp only [Frac.toRat, Frac.add]
  push_cast
  field_simp

theorem Frac.toRat_sub (a b : Frac) (ha : a.den ≠ 0) (hb : b.den ≠ 0) :
    (a.sub b).toRat = a.toRat - b.toRat := by
  have ha' : (a.den : Rat) ≠ 0 := by exact_mod_cast ha
  have hb' : (b.den : Rat) ≠ 0 := by exact_mod_cast hb
  simp only [Frac.toRat, Frac.sub]
  push_cast
  field_simp

theorem Frac.toRat_abs (a : Frac) : a.abs.toRat = |a.toRat| := by
  simp only [Frac.toRat, Frac.abs, abs_div, Nat.abs_cast]
  congr 1
  push_cast
  simp

theorem Frac.toRat_mulNat (a : Frac) (n : Nat) : (a.mulNat n).toRat = a.toRat * n := by
  simp only [Frac.toRat, Frac.mulNat]
  push_cast
  ring

theorem Frac.toRat_divNat (a : Frac) (n : Nat) : (a.divNat n).toRat = a.toRat / n := by
  simp only [Frac.toRat, Frac.divNat]
  push_cast
  rw [div_div]

theorem realOf_den_ne_zero (f : Word) : (realOf hardware f).den ≠ 0 := by
  have h : ∀ k : Nat, (2 : Nat) ^ k ≠ 0 := fun k => by positivity
  exact h _

/-- `trunc` is truncation toward zero, as the claims speak of it (R9). -/
theorem truncFrac_spec (q : Frac) (h : q.den ≠ 0) : IsTrunc q.toRat (truncFrac hardware q) := by
  have hd : (0 : Rat) < q.den := by exact_mod_cast Nat.pos_of_ne_zero h
  have hd' : (0 : Int) < q.den := by exact_mod_cast Nat.pos_of_ne_zero h
  have hval : truncFrac hardware q = q.num.tdiv q.den := rfl
  have hnum : (q.num : Rat) = q.toRat * q.den := by
    unfold Frac.toRat; field_simp
  rw [hval]
  obtain ⟨num, den⟩ := q
  simp only at *
  set v := (Frac.mk num den).toRat with hv
  have e1 : (den : Int) * num.tdiv den + num.tmod den = num := Int.mul_tdiv_add_tmod num den
  have e1' : (den : Rat) * (num.tdiv den : Int) + (num.tmod den : Int) = v * den := by
    rw [← hnum]; exact_mod_cast e1
  have lt : |num.tmod den| < den := by
    have h1 := Int.tmod_lt_of_pos num hd'
    have h2 := Int.lt_tmod_of_pos num hd'
    rw [abs_lt]; exact ⟨h2, h1⟩
  have lt' : |((num.tmod den : Int) : Rat)| < den := by exact_mod_cast lt
  rw [abs_lt] at lt'
  rcases le_total 0 num with hn | hn
  · have hq : (0 : Int) ≤ num.tdiv den := Int.tdiv_nonneg hn (by omega)
    have hr : (0 : Int) ≤ num.tmod den := Int.tmod_nonneg _ hn
    have hq' : (0 : Rat) ≤ (num.tdiv den : Int) := by exact_mod_cast hq
    have hr' : (0 : Rat) ≤ (num.tmod den : Int) := by exact_mod_cast hr
    have hvq : ((num.tdiv den : Int) : Rat) ≤ v := by
      by_contra hc; push Not at hc; nlinarith
    have hv1 : v - (num.tdiv den : Int) < 1 := by
      by_contra hc; push Not at hc; nlinarith
    refine ⟨?_, ?_, ?_⟩
    · rw [abs_of_nonneg hq', abs_of_nonneg (le_trans hq' hvq)]; exact hvq
    · rw [abs_of_nonneg (by linarith)]; exact hv1
    · exact mul_nonneg (le_trans hq' hvq) hq'
  · have hq : num.tdiv den ≤ (0 : Int) := by
      have := Int.tdiv_nonneg (a := -num) (b := den) (by omega) (by omega)
      rw [Int.neg_tdiv] at this; omega
    have hr : num.tmod den ≤ (0 : Int) := by
      have := Int.tmod_nonneg (a := -num) (den : Int) (by omega)
      rw [Int.neg_tmod] at this; omega
    have hq' : ((num.tdiv den : Int) : Rat) ≤ 0 := by exact_mod_cast hq
    have hr' : ((num.tmod den : Int) : Rat) ≤ 0 := by exact_mod_cast hr
    have hvq : v ≤ ((num.tdiv den : Int) : Rat) := by
      by_contra hc; push Not at hc; nlinarith
    have hv1 : -1 < v - (num.tdiv den : Int) := by
      by_contra hc; push Not at hc; nlinarith
    refine ⟨?_, ?_, ?_⟩
    · rw [abs_of_nonpos hq', abs_of_nonpos (le_trans hvq hq')]; linarith
    · rw [abs_of_nonpos (by linarith)]; linarith
    · exact mul_nonneg_of_nonpos_of_nonpos (le_trans hvq hq') hq'

/-- `round` is the nearest integer with ties away from zero, as the claims speak of it (R9). -/
theorem roundFrac_spec (q : Frac) (h : q.den ≠ 0) : IsRoundAway q.toRat (roundFrac hardware q) := by
  obtain ⟨num, den⟩ := q
  have hd : 0 < den := Nat.pos_of_ne_zero h
  have hdq : (0 : Rat) < den := by exact_mod_cast hd
  set n := num.natAbs with hn
  set m := (2 * n + den) / (2 * den) with hm
  have hdiv : 2 * den * m + (2 * n + den) % (2 * den) = 2 * n + den := Nat.div_add_mod _ _
  have hlt : (2 * n + den) % (2 * den) < 2 * den := Nat.mod_lt _ (by omega)
  have h1 : 2 * den * m ≤ 2 * n + den := by omega
  have h2 : 2 * n + den < 2 * den * m + 2 * den := by omega
  have h1q : 2 * (den : Rat) * m ≤ 2 * n + den := by exact_mod_cast h1
  have h2q : 2 * (n : Rat) + den < 2 * den * m + 2 * den := by exact_mod_cast h2
  set a : Rat := (n : Rat) / den with ha
  have han : (n : Rat) = a * den := by rw [ha]; field_simp
  have lo : (m : Rat) ≤ a + 1 / 2 := by
    by_contra hc; push Not at hc; rw [han] at h1q; nlinarith
  have hi : a + 1 / 2 < m + 1 := by
    by_contra hc; push Not at hc; rw [han] at h2q; nlinarith
  have ha0 : 0 ≤ a := by positivity
  have core : |a - m| ≤ 1 / 2 ∧ (|a - m| = 1 / 2 → a < m) := by
    refine ⟨abs_le.2 ⟨by linarith, by linarith⟩, fun he => ?_⟩
    rcases le_total (m : Rat) a with hc | hc
    · rw [abs_of_nonneg (by linarith)] at he; linarith
    · rcases lt_or_eq_of_le hc with hc | hc
      · exact hc
      · rw [hc] at he; norm_num at he
  have hval : roundFrac hardware ⟨num, den⟩ = if num < 0 then -(m : Int) else (m : Int) := rfl
  rw [hval]
  have hm0 : (0 : Rat) ≤ m := by positivity
  by_cases hneg : num < 0
  · have hnum : (num : Rat) = -(n : Rat) := by
      have : num = -(n : Int) := by omega
      rw [this]; push_cast; ring
    have hv : (Frac.mk num den).toRat = -a := by
      simp only [Frac.toRat]; rw [hnum, ha]; ring
    rw [if_pos hneg, hv]
    have e : -a - ((-(m : Int) : Int) : Rat) = -(a - m) := by push_cast; ring
    refine ⟨by rw [e, abs_neg]; exact core.1, fun he => ?_⟩
    rw [e, abs_neg] at he
    push_cast
    rw [abs_neg, abs_neg, abs_of_nonneg ha0, abs_of_nonneg hm0]
    exact core.2 he
  · have hnum : (num : Rat) = (n : Rat) := by
      have : num = (n : Int) := by omega
      rw [this]; push_cast; rfl
    have hv : (Frac.mk num den).toRat = a := by
      simp only [Frac.toRat]; rw [hnum]
    rw [if_neg hneg, hv]
    refine ⟨by push_cast; exact core.1, fun he => ?_⟩
    push_cast at he ⊢
    rw [abs_of_nonneg ha0, abs_of_nonneg hm0]
    exact core.2 he

/-- Only one integer is the rounding of a rational, so `roundFrac_spec` says which. -/
theorem IsRoundAway.unique {q : Rat} {a b : Int} (ha : IsRoundAway q a) (hb : IsRoundAway q b) : a = b := by
  obtain ⟨ha1, ha2⟩ := ha
  obtain ⟨hb1, hb2⟩ := hb
  by_contra hne
  wlog hlt : a < b generalizing a b
  · exact this hb1 hb2 ha1 ha2 (Ne.symm hne) (by omega)
  have hab : (a : Rat) + 1 ≤ b := by exact_mod_cast hlt
  rw [abs_le] at ha1 hb1
  have hqa : q - a = 1 / 2 := by linarith
  have hqb : q - b = -(1 / 2) := by linarith
  have h1 := ha2 (by rw [hqa]; norm_num)
  have h2 := hb2 (by rw [hqb]; norm_num)
  have hb' : (b : Int) = a + 1 := by
    have : (b : Rat) = a + 1 := by linarith
    exact_mod_cast this
  have hbq : (b : Rat) = a + 1 := by exact_mod_cast hb'
  rcases Int.lt_or_le a 0 with h0 | h0
  · have h0q : (a : Rat) ≤ -1 := by exact_mod_cast Int.le_sub_one_of_lt h0
    rw [abs_of_nonpos (by linarith : q ≤ 0), abs_of_nonpos (by linarith : (b : Rat) ≤ 0)] at h2
    linarith
  · have h0q : (0 : Rat) ≤ a := by exact_mod_cast h0
    rw [abs_of_nonneg (by linarith : 0 ≤ q), abs_of_nonneg h0q] at h1
    linarith

/-! ### The pieces of `toFloat` -/

/-- `roundEven` gives an integer at most half a unit away, and an even one at exactly half. -/
theorem roundEven_spec (n d : Nat) (hd : 0 < d) :
    2 * (roundEven n d) * d ≤ 2 * n + d ∧ 2 * n ≤ 2 * (roundEven n d) * d + d ∧
      ((2 * (roundEven n d) * d = 2 * n + d ∨ 2 * n = 2 * (roundEven n d) * d + d) → roundEven n d % 2 = 0) := by
  have e : d * (n / d) + n % d = n := Nat.div_add_mod n d
  have hr : n % d < d := Nat.mod_lt _ hd
  unfold roundEven
  generalize n / d = q at *
  generalize n % d = r at *
  have hc : d * q = q * d := Nat.mul_comm _ _
  simp only
  have x1 : 2 * q * d = 2 * (q * d) := by ring
  have x2 : 2 * (q + 1) * d = 2 * (q * d) + 2 * d := by ring
  split
  · rw [x1]; refine ⟨by omega, by omega, ?_⟩; intro h; omega
  · split
    · rw [x2]; refine ⟨by omega, by omega, ?_⟩; intro h; omega
    · rcases Nat.mod_two_eq_zero_or_one q with hq | hq
      · rw [hq, Nat.add_zero, x1]; exact ⟨by omega, by omega, fun _ => hq⟩
      · rw [hq, x2]; exact ⟨by omega, by omega, fun _ => by omega⟩

/-- `floorLog2` is the exponent of the binade that holds `n / d`. -/
theorem floorLog2_spec (n d : Nat) (hn : 0 < n) (hd : 0 < d) :
    (2 : Rat) ^ floorLog2 n d ≤ (n : Rat) / d ∧ (n : Rat) / d < 2 ^ (floorLog2 n d + 1) := by
  have hdq : (0 : Rat) < d := by exact_mod_cast hd
  have hln : 2 ^ n.log2 ≤ n := Nat.log2_self_le (by omega)
  have hln' : n < 2 ^ (n.log2 + 1) := Nat.lt_log2_self
  have hld : 2 ^ d.log2 ≤ d := Nat.log2_self_le (by omega)
  have hld' : d < 2 ^ (d.log2 + 1) := Nat.lt_log2_self
  have a1 : (2 : Rat) ^ (n.log2 : Int) ≤ n := by rw [zpow_natCast]; exact_mod_cast hln
  have a2 : (n : Rat) < 2 ^ ((n.log2 : Int) + 1) := by
    have : (n : Rat) < 2 ^ (n.log2 + 1) := by exact_mod_cast hln'
    rw [← zpow_natCast] at this; push_cast at this; exact this
  have b1 : (2 : Rat) ^ (d.log2 : Int) ≤ d := by rw [zpow_natCast]; exact_mod_cast hld
  have b2 : (d : Rat) < 2 ^ ((d.log2 : Int) + 1) := by
    have : (d : Rat) < 2 ^ (d.log2 + 1) := by exact_mod_cast hld'
    rw [← zpow_natCast] at this; push_cast at this; exact this
  set e : Int := (n.log2 : Int) - (d.log2 : Int) with he
  have two : (2 : Rat) ≠ 0 := by norm_num
  have up : (n : Rat) / d < 2 ^ (e + 1) := by
    rw [div_lt_iff₀ hdq]
    calc (n : Rat) < 2 ^ ((n.log2 : Int) + 1) := a2
      _ = 2 ^ (e + 1) * 2 ^ (d.log2 : Int) := by rw [← zpow_add₀ two]; congr 1; omega
      _ ≤ 2 ^ (e + 1) * d := by gcongr
  have lo : (2 : Rat) ^ (e - 1) ≤ n / d := by
    rw [le_div_iff₀ hdq]
    calc (2 : Rat) ^ (e - 1) * d ≤ 2 ^ (e - 1) * 2 ^ ((d.log2 : Int) + 1) := by gcongr
      _ = 2 ^ (n.log2 : Int) := by rw [← zpow_add₀ two]; congr 1; omega
      _ ≤ n := a1
  have split2 : (2 : Rat) ^ e = 2 ^ e.toNat / 2 ^ (-e).toNat := by
    rw [← zpow_natCast, ← zpow_natCast, ← zpow_sub₀ two]; congr 1; omega
  have test : d * 2 ^ e.toNat ≤ n * 2 ^ (-e).toNat ↔ (2 : Rat) ^ e ≤ n / d := by
    have hp : (0 : Rat) < 2 ^ (-e).toNat := by positivity
    rw [split2, div_le_div_iff₀ hp hdq]
    constructor
    · intro hh
      have : (d : Rat) * 2 ^ e.toNat ≤ n * 2 ^ (-e).toNat := by exact_mod_cast hh
      linarith
    · intro hh
      have : (d : Rat) * 2 ^ e.toNat ≤ n * 2 ^ (-e).toNat := by linarith
      exact_mod_cast this
  have hfl : floorLog2 n d = if d * 2 ^ e.toNat ≤ n * 2 ^ (-e).toNat then e else e - 1 := rfl
  rw [hfl]
  split
  · rename_i hh; exact ⟨test.1 hh, up⟩
  · rename_i hh
    refine ⟨lo, ?_⟩
    rw [sub_add_cancel]
    by_contra hc
    push Not at hc
    exact hh (test.2 hc)

end Sys2Proof.Machine
end

