-- ==== Sys2Proof/Laws/PerInstr.lean ====
section
/-! SUPPORT. A family of statements, one per operation: its request uses the fields of its row of the
operation-code map (30_encoding.md R75) and no other. -/

namespace Sys2Proof.Laws.PortUse

open Sys2Proof.Machine

/-- The request of `i` carries a row's code, and nothing outside the fields that row reads. -/
def Statement (i : Instr) : Prop :=
  ∃ row ∈ opTable, row.op = (encode i).op ∧ keepRequest row.reads (encode i) = encode i

theorem vqSplit (fa : Word) (mul : Half) : Statement (.vqSplit fa mul) :=
  ⟨opTable[0], by decide, rfl, rfl⟩

theorem vqJoin (x y mul : Half) : Statement (.vqJoin x y mul) := ⟨opTable[1], by decide, rfl, rfl⟩

theorem vqDms (x y : Half) : Statement (.vqDms x y) := ⟨opTable[2], by decide, rfl, rfl⟩

theorem vqQuant (fa : Word) (mul div : Half) (k2 : Byte) : Statement (.vqQuant fa mul div k2) :=
  ⟨opTable[3], by decide, rfl, rfl⟩

theorem vqDequant (z : Word) (mul div : Half) (k2 : Byte) : Statement (.vqDequant z mul div k2) :=
  ⟨opTable[4], by decide, rfl, rfl⟩

theorem vqCellD (k : Byte) (fa : Word) : Statement (.vqCellD k fa) := ⟨opTable[5], by decide, rfl, rfl⟩

theorem vqCellSp (k k2 : Byte) (fa fb : Word) : Statement (.vqCellSp k k2 fa fb) :=
  ⟨opTable[6], by decide, rfl, rfl⟩

theorem dfEncode (k : Byte) (x : Half) : Statement (.dfEncode k x) := ⟨opTable[7], by decide, rfl, rfl⟩

theorem dfFeed (k : Byte) : Statement (.dfFeed k) := ⟨opTable[8], by decide, rfl, rfl⟩

theorem dfReset : Statement .dfReset := ⟨opTable[9], by decide, rfl, rfl⟩

theorem dfGetState : Statement .dfGetState := ⟨opTable[10], by decide, rfl, rfl⟩

theorem dfSetState (z : Word) : Statement (.dfSetState z) := ⟨opTable[11], by decide, rfl, rfl⟩

theorem ckSum (pk : ByteVec) (k : Byte) : Statement (.ckSum pk k) := ⟨opTable[12], by decide, rfl, rfl⟩

theorem ckVerify (pk : ByteVec) : Statement (.ckVerify pk) := ⟨opTable[13], by decide, rfl, rfl⟩

theorem spEncode (k : Byte) (y : Half) (z : Word) : Statement (.spEncode k y z) :=
  ⟨opTable[14], by decide, rfl, rfl⟩

theorem spEncode10 (y : Half) (z : Word) : Statement (.spEncode10 y z) := ⟨opTable[15], by decide, rfl, rfl⟩

theorem spEmpty : Statement .spEmpty := ⟨opTable[16], by decide, rfl, rfl⟩

theorem spDecode (pk : ByteVec) : Statement (.spDecode pk) := ⟨opTable[17], by decide, rfl, rfl⟩

end Sys2Proof.Laws.PortUse
end

