-- ==== Sys2Proof/Tests/Slice0.lean ====
section
/-! SUPPORT. Tests of the model on fixed values, each with its source, and for every statement that has
hypotheses a witness that meets them. -/

namespace Sys2Proof.Tests

open Sys2Proof.Machine

set_option Elab.async false

/-- The state after an operation on a state. -/
def after (i : Instr) (s : State) : Option State :=
  match exec i s with
  | .next t => some t
  | .fault _ => none
  | .refused _ => none

/-- The response to an operation on the reset state. -/
def answer (i : Instr) : Option Response := (after i State.reset).bind fun t => t.responses.head?

/-- A state that holds nothing but a context. -/
def withCtx (c : Context) : State := ⟨c, [], []⟩

/-- A state whose next input is the request of an operation. -/
def asked (i : Instr) : State := ⟨Context.clear, [.request (encode i)], []⟩

/-! ### Well-formedness: each check refuses an ill-formed term -/

theorem test_wf_request_defined : (Request.blank 0x33).wellFormed = true := by decide
theorem test_wf_request_reserved : (Request.blank 0x07).wellFormed = false := by decide
theorem test_wf_quant_format : (Instr.vqQuant 0 1 1 7).wellFormed = false := by decide
theorem test_wf_dequant_format : (Instr.vqDequant 0 1 1 3).wellFormed = false := by decide
theorem test_wf_token_state : (Instr.dfSetState 6).wellFormed = false := by decide
theorem test_wf_sum_length : (Instr.ckSum 0 9).wellFormed = false := by decide
theorem test_wf_accepts : (Instr.vqQuant 0 1 1 0xFE).wellFormed = true ∧ (Instr.dfSetState 0x5).wellFormed = true ∧
    (Instr.ckSum 0 8).wellFormed = true ∧ (Instr.vqDequant 0 1 1 6).wellFormed = true := by decide

/-- R240, R242, R243: each duty is failed by a request. -/
theorem test_duties : Instr.meetsHostDuties (Instr.vqCellD 16 0) = false ∧
    Instr.meetsHostDuties (Instr.vqCellSp 0 16 0 0) = false ∧ Instr.meetsHostDuties (Instr.dfEncode 0x5D 0) = false ∧
    Instr.meetsHostDuties (Instr.dfSetState 0xAABBCC0B) = false ∧
    Instr.meetsHostDuties (Instr.dfSetState 0x0001240C) = true := by decide

/-- R243, R141: a token with a bit of 7..4 set is none that `DF.GETSTATE` returns, though `DF.SETSTATE` takes it. -/
theorem test_duty_token_bits : Instr.meetsHostDuties (.dfSetState 0x000000F0) = false ∧
    Instr.meetsHostDuties (.dfSetState 0x00000000) = true ∧
    answer (.dfSetState 0x000000F0) = some {} := by decide

/-! ### Decoding: one request word per operation, written out field by field from R70 and R75 (K2, K, DIV,
MUL, Z, Y, X, PK, FB, FA, OP from the top), the fields that the row does not read holding anything -/

theorem test_decode_vqSplit :
    decodeWord 0x6171818203E8F1F2F3F4E1E2D1D2C1C2C3C4C5C6C7C8B1B2B3B44145851F00#248 =
      .instr (.vqSplit 0x4145851F#32 0x03E8#16) := by decide

theorem test_decode_vqJoin :
    decodeWord 0x617181820064F1F2F3F40046FFF4C1C2C3C4C5C6C7C8B1B2B3B4A1A2A3A401#248 =
      .instr (.vqJoin 0xFFF4#16 0x0046#16 0x0064#16) := by decide

theorem test_decode_vqDms :
    decodeWord 0x617181829192F1F2F3F40D8012C7C1C2C3C4C5C6C7C8B1B2B3B4A1A2A3A402#248 =
      .instr (.vqDms 0x12C7#16 0x0D80#16) := by decide

theorem test_decode_vqQuant :
    decodeWord 0x0571003C0001F1F2F3F4E1E2D1D2C1C2C3C4C5C6C7C8B1B2B3B4C1A0000003#248 =
      .instr (.vqQuant 0xC1A00000#32 0x0001#16 0x003C#16 0x05#8) := by decide

theorem test_decode_vqDequant :
    decodeWord 0x05710001000A0000FFECE1E2D1D2C1C2C3C4C5C6C7C8B1B2B3B4A1A2A3A404#248 =
      .instr (.vqDequant 0x0000FFEC#32 0x000A#16 0x0001#16 0x05#8) := by decide

theorem test_decode_vqCellD :
    decodeWord 0x610381829192F1F2F3F4E1E2D1D2C1C2C3C4C5C6C7C8B1B2B3B4406CCCCD05#248 =
      .instr (.vqCellD 0x03#8 0x406CCCCD#32) := by decide

theorem test_decode_vqCellSp :
    decodeWord 0x060281829192F1F2F3F4E1E2D1D2C1C2C3C4C5C6C7C8406D70A4406CCCCD06#248 =
      .instr (.vqCellSp 0x02#8 0x06#8 0x406CCCCD#32 0x406D70A4#32) := by decide

theorem test_decode_dfEncode :
    decodeWord 0x610281829192F1F2F3F4E1E2FFECC1C2C3C4C5C6C7C8B1B2B3B4A1A2A3A410#248 =
      .instr (.dfEncode 0x02#8 0xFFEC#16) := by decide

theorem test_decode_dfFeed :
    decodeWord 0x615E81829192F1F2F3F4E1E2D1D2C1C2C3C4C5C6C7C8B1B2B3B4A1A2A3A411#248 =
      .instr (.dfFeed 0x5E#8) := by decide

theorem test_decode_dfReset :
    decodeWord 0x617181829192F1F2F3F4E1E2D1D2C1C2C3C4C5C6C7C8B1B2B3B4A1A2A3A412#248 =
      .instr .dfReset := by decide

theorem test_decode_dfGetState :
    decodeWord 0x617181829192F1F2F3F4E1E2D1D2C1C2C3C4C5C6C7C8B1B2B3B4A1A2A3A413#248 =
      .instr .dfGetState := by decide

theorem test_decode_dfSetState :
    decodeWord 0x6171818291920001240CE1E2D1D2C1C2C3C4C5C6C7C8B1B2B3B4A1A2A3A414#248 =
      .instr (.dfSetState 0x0001240C#32) := by decide

theorem test_decode_ckSum :
    decodeWord 0x610781829192F1F2F3F4E1E2D1D200000004D2091010B1B2B3B4A1A2A3A420#248 =
      .instr (.ckSum 0x00000004D2091010#64 0x07#8) := by decide

theorem test_decode_ckVerify :
    decodeWord 0x617181829192F1F2F3F4E1E2D1D210000004D2091010B1B2B3B4A1A2A3A421#248 =
      .instr (.ckVerify 0x10000004D2091010#64) := by decide

theorem test_decode_spEncode :
    decodeWord 0x611081829192000004D20910D1D2C1C2C3C4C5C6C7C8B1B2B3B4A1A2A3A430#248 =
      .instr (.spEncode 0x10#8 0x0910#16 0x000004D2#32) := by decide

theorem test_decode_spEncode10 :
    decodeWord 0x617181829192000004D20910D1D2C1C2C3C4C5C6C7C8B1B2B3B4A1A2A3A431#248 =
      .instr (.spEncode10 0x0910#16 0x000004D2#32) := by decide

theorem test_decode_spEmpty :
    decodeWord 0x617181829192F1F2F3F4E1E2D1D2C1C2C3C4C5C6C7C8B1B2B3B4A1A2A3A432#248 =
      .instr .spEmpty := by decide

theorem test_decode_spDecode :
    decodeWord 0x617181829192F1F2F3F4E1E2D1D210000004D2091010B1B2B3B4A1A2A3A433#248 =
      .instr (.spDecode 0x10000004D2091010#64) := by decide

/-- R76: both ends of each reserved range. -/
theorem test_decode_reserved : ∀ op ∈ [0x07#8, 0x0F#8, 0x15#8, 0x1F#8, 0x22#8, 0x2F#8, 0x34#8, 0xFF#8],
    decode (Request.blank op) = .reserved op := by decide

theorem test_table_word : decodeTableWord 8 0x13 = some .dfGetState ∧ decodeTableWord 8 0x80 = none := by decide

theorem test_fetch_word : step (State.reset.withFetchWord 8 0x32) =
    .next ⟨Context.clear, [], [{ rpk := 0xFF00000000000000#64, rlen := 8 }]⟩ := rfl

/-- The rows of R75 and the codes of the decoder are the same 18, no two alike. -/
theorem test_table_codes : opTable.map OpRow.op = definedOps ∧ definedOps.Nodup ∧
    (opTable.map OpRow.mnemonic).Nodup := by decide

/-! ### One vector or two per operation, from 95_test_vectors.md sections 2.1 to 4.5 -/

theorem test_split_limit :
    answer (.vqSplit 0xC7000080#32 100#16) = some { rx := 0x8000, ry := 50 } := by decide +kernel

theorem test_split_sign_lost : answer (.vqSplit 0xBF000000#32 10#16) = some { rx := 0, ry := 5 } := by decide +kernel

theorem test_join_subtracts : answer (.vqJoin 0xFFFF#16 1#16 3#16) = some { rf := 0xBFAAAAAB } := by decide +kernel

theorem test_join_largest : answer (.vqJoin 0x8000#16 65535#16 1#16) = some { rf := 0xC7BFFF80 } := by decide +kernel

theorem test_dms_negative :
    answer (.vqDms 0xED39#16 3456#16) = some { rx := 0xFFD0, ry := 0xFFF9, rf := 0x41A5E354 } := by decide +kernel

theorem test_dms_extreme :
    answer (.vqDms 0x8000#16 65535#16) = some { rx := 0xFEB9, ry := 0xFFBC, rf := 0x43C49AE1 } := by decide +kernel

theorem test_quant_tie_away : answer (.vqQuant 0x42B40000#32 1#16 60#16 0#8) = some { rz := 2 } := by decide +kernel

theorem test_quant_rounds_out_of_range :
    answer (.vqQuant 0xC3008000#32 1#16 1#16 4#8) = some { st := 3 } := by decide +kernel

theorem test_dequant_tie_even :
    answer (.vqDequant 0x01000003#32 1#16 1#16 2#8) = some { rf := 0x4B800002 } := by decide +kernel

theorem test_dequant_low_bits :
    answer (.vqDequant 0x12345680#32 1#16 1#16 4#8) = some { rf := 0xC3000000 } := by decide +kernel

theorem test_cellD_scenario :
    answer (.vqCellD 3#8 0x406CCCCD#32) = some { rk := 0x37, rk2 := 0x3A, rz := 0x00003A37 } := by decide +kernel

theorem test_cellD_just_fits :
    answer (.vqCellD 5#8 0x41030E56#32) = some { rk := 0x5F, rk2 := 0xFF, rz := 0x0000FF5F } := by decide +kernel

theorem test_cellSp_masks :
    answer (.vqCellSp 0x12#8 0x36#8 0x40866666#32 0x40866666#32) = some { rz := 0x83483462 } := by decide +kernel

theorem test_cellSp_second_too_large :
    answer (.vqCellSp 0#8 2#8 0x3F800000#32 0x41033333#32) = some { st := 3 } := by decide +kernel

theorem test_encode_both_escaped :
    answer (.dfEncode 0x10#8 0x5D5E#16) = some { rpk := 0x005E3D5D3E5D105E#64, rlen := 7 } := by decide +kernel

theorem test_encode_id_not_escaped :
    answer (.dfEncode 0x5E#8 0x1234#16) = some { rpk := 0x0000005E12345E5E#64, rlen := 5 } := by decide +kernel

theorem test_sum_scenario :
    answer (.ckSum 0xAA000004D2091010#64 3#8) = some { rk := 0x29, rk2 := 0xD6 } := by decide +kernel

theorem test_sum_too_long : answer (.ckSum 0#64 9#8) = some { st := 3 } := by decide +kernel

theorem test_verify_rejects :
    answer (.ckVerify 0x00000004D2091010#64) = some { rk := 0xEF, rk2 := 0 } := by decide +kernel

theorem test_verify_accepts :
    answer (.ckVerify 0x000000000000FFAB#64) = some { rk := 0xFF, rk2 := 1 } := by decide +kernel

theorem test_spEncode_data :
    answer (.spEncode 0x10#8 0x0210#16 0x12345678#32) = some { rpk := 0xC812345678021010#64, rlen := 8 } := by decide +kernel

theorem test_spEncode_type_ff :
    answer (.spEncode 0xFF#8 0#16 0#32) = some { rpk := 0x00000000000000FF#64, rlen := 8 } := by decide +kernel

theorem test_spEncode10_negative :
    answer (.spEncode10 0x0100#16 0xFFFFFFEC#32) = some { rpk := 0x02FFFFFFEC010010#64, rlen := 8 } := by decide +kernel

theorem test_spEmpty_constant :
    answer .spEmpty = some { rpk := 0xFF00000000000000#64, rlen := 8 } := by decide +kernel

theorem test_spDecode_accepts :
    answer (.spDecode 0x3980000000123410#64) = some { rk := 0x10, ry := 0x1234, rz := 0x80000000 } := by decide +kernel

theorem test_spDecode_rejects_built : answer (.spDecode 0x00000004D2091010#64) = some { st := 2 } := by decide +kernel

/-- 95_test_vectors.md T2, its fifth row: the escaped high byte is stored. -/
theorem test_feed_escape_high : (after (.dfFeed 0x3E) (withCtx ⟨.escapePending, 1, 0x24, 0x01, 0⟩)).map
    (fun t => (t.ctx.token, t.responses)) = some (0x5E012405#32, [{}]) := by decide

/-- 95_test_vectors.md section 5: the one error that writes state. -/
theorem test_feed_framing_error : (after (.dfFeed 0x00) (withCtx ⟨.escapePending, 0, 0x02, 0, 0⟩)).map
    (fun t => (t.ctx.token, t.responses)) = some (0#32, [{ st := 1 }]) := by decide

/-- 95_test_vectors.md section 3.4, the last paragraph. -/
theorem test_reset_clears : (after .dfReset (withCtx ⟨.readDataHigh, 0, 0x10, 0x01, 0⟩)).map
    (fun t => t.ctx.token) = some 0#32 := by decide

theorem test_getState : (after .dfGetState (withCtx ⟨.escapePending, 1, 0x24, 0x01, 0⟩)).map
    (fun t => t.responses) = some [{ rz := 0x0001240C }] := by decide

/-- 95_test_vectors.md section 3.4: bits 7..4 are dropped, a stray slot bit is kept. -/
theorem test_setState_drops_bits : (after (.dfSetState 0x1234567D) State.reset).map
    (fun t => t.ctx) = some ⟨.waitEnd, 1, 0x56, 0x34, 0x12⟩ := by decide

theorem test_setState_reserved : (after (.dfSetState 0x00000006) (withCtx ⟨.readDataHigh, 0, 0x02, 0xEC, 0⟩)).map
    (fun t => (t.ctx.token, t.responses)) = some (0x00EC0203#32, [{ st := 3 }]) := by decide

/-- 95_test_vectors.md section 2.3: floor division would give -49 and 93. -/
theorem test_dms_floor : (vqDms { hardware with divMod := .floor } 0xED39#16 3456#16).toOption =
    some { rx := 0xFFCF, ry := 0x005D, rf := 0x41A5E354 } := by decide +kernel

/-- 95_test_vectors.md section 5: a reserved code leaves the context. -/
theorem test_reserved_code : step ⟨⟨.escapePending, 1, 0x24, 0x01, 0⟩, [.request (Request.blank 0x07)], []⟩ =
    .next ⟨⟨.escapePending, 1, 0x24, 0x01, 0⟩, [], [{ st := 4 }]⟩ := rfl

/-! ### Witnesses: the hypotheses of each statement are met -/

theorem witness_DecodedRequestReencodes : decode { Request.blank 0x00 with fb := 7 } = .instr (.vqSplit 0 0) := by decide

theorem witness_UnusedPortFieldsIgnoredOrZero :
    (opTable[0] ∈ opTable ∧ opTable[0].op = (Request.blank 0x00).op) ∧
    (opTable[0] ∈ opTable ∧ opTable[0].op = (encode (.vqSplit 0 1)).op) ∧
    answer (.vqSplit 0 0) = some { st := 3 } := by decide

theorem witness_ReservedCodesAnswerIllegalOp : definedOps.contains (Request.blank 0x07).op = false ∧
    definedOps.contains (Request.blank 0xFF).op = false := by decide

theorem witness_StepRunsDecodedRequest : decode (Request.blank 0x32) = .instr .spEmpty ∧
    definedOps.contains (Request.blank 0x33).op = true := by decide

theorem witness_ResponsesStayWellFormed : (asked .spEmpty).responsesWellFormed = true ∧
    step (asked .spEmpty) = .next ⟨Context.clear, [], [{ rpk := 0xFF00000000000000#64, rlen := 8 }]⟩ :=
  ⟨rfl, rfl⟩

theorem witness_CanonicalContextKept_feed : (asked (.dfFeed 0x5E)).ctx.canonical = true ∧
    decode (encode (.dfFeed 0x5E)) = .instr (.dfFeed 0x5E) ∧
    step (asked (.dfFeed 0x5E)) = .next ⟨⟨.readId, 0, 0, 0, 0⟩, [], [{}]⟩ := ⟨rfl, rfl, rfl⟩

theorem witness_CanonicalContextKept_setState : (asked (.dfSetState 0x0001240C)).ctx.canonical = true ∧
    contextOfToken 0x0001240C = some ⟨.escapePending, 1, 0x24, 0x01, 0⟩ ∧
    Context.canonical ⟨.escapePending, 1, 0x24, 0x01, 0⟩ = true ∧
    step (asked (.dfSetState 0x0001240C)) = .next ⟨⟨.escapePending, 1, 0x24, 0x01, 0⟩, [], [{}]⟩ :=
  ⟨rfl, rfl, rfl, rfl⟩

theorem witness_ReachableContextsAreTheSevenShapes :
    (∀ x ∈ feedAll [0x5E, 0x24, 0x01, 0x5D], ∃ b, x = .request (encode (.dfFeed b))) ∧
    Host.Core.run Sys2Proof.core 4 { State.reset with inputs := feedAll [0x5E, 0x24, 0x01, 0x5D] } =
      .next ⟨⟨.escapePending, 1, 0x24, 0x01, 0⟩, [], [{}, {}, {}, {}]⟩ := by
  refine ⟨fun x h => ?_, rfl⟩
  obtain ⟨b, _, hb⟩ := List.mem_map.1 h
  exact ⟨b, hb.symm⟩

theorem witness_SideEffectsAreConfined : (∀ k, Instr.spEmpty ≠ .dfFeed k) ∧ Instr.spEmpty ≠ .dfReset ∧
    Instr.spEmpty ≠ .dfGetState ∧ (∀ z, Instr.spEmpty ≠ .dfSetState z) := by
  refine ⟨?_, ?_, ?_, ?_⟩ <;> simp

theorem witness_OnlyContextRowsWriteContext : opTable[8] ∈ opTable ∧ opTable[8].op = (encode (.dfFeed 0)).op ∧
    opTable[8].writesContext = true ∧ opTable[10].op = (encode .dfGetState).op ∧
    opTable[10].writesContext = false := by decide

theorem witness_ErrorsChangeNothingElse :
    after (.ckSum 0 9) State.reset = some ⟨Context.clear, [], [{ st := 3 }]⟩ ∧
    after (.dfFeed 0) (withCtx ⟨.waitEnd, 0, 1, 2, 3⟩) = some ⟨Context.clear, [], [{ st := 1 }]⟩ := by decide

theorem witness_StatusIsOkOrTheRowsError : opTable[17] ∈ opTable ∧ opTable[17].op = (encode (.spDecode 0)).op := by
  decide

theorem witness_FloatResultsAreRegular :
    after (.vqJoin 0 1 65535) State.reset = some ⟨Context.clear, [], [{ rf := 0x37800080 }]⟩ := by decide +kernel

theorem witness_RealIsTheBinary32Value : floatClass hardware 0x00000001 = .finite ∧
    floatClass hardware 0x80800000 = .finite ∧ floatClass hardware 0x7F7FFFFF = .finite := by decide

theorem witness_ToFloatIsNearestTiesToEven : (Frac.mk 1 65535).den ≠ 0 ∧ (Frac.mk 0 1).num = 0 ∧
    1 / 65535 ≤ |(Frac.mk 1 65535).toRat| ∧ |(Frac.mk (-281474976710655) 1).toRat| < 2 ^ 48 ∧
    1 / 65535 ≤ |(Frac.mk (-281474976710655) 1).toRat| ∧ |(Frac.mk 1 65535).toRat| < 2 ^ 48 := by decide +kernel

/-- The tie 16777217: the chosen pattern is as far as its neighbour and has an even fraction. -/
theorem witness_ToFloatIsNearestTiesToEven_tie : toFloat hardware (Frac.mk 16777217 1) = 0x4B800000 ∧
    |(realOf hardware 0x4B800000).toRat - 16777217| = |(realOf hardware 0x4B800001).toRat - 16777217| ∧
    (realOf hardware 0x4B800001).toRat ≠ (realOf hardware 0x4B800000).toRat := by decide +kernel

theorem witness_ToFloatDependsOnValueOnly : (Frac.mk 1 3).toRat = (Frac.mk 2 6).toRat := by decide +kernel

theorem witness_ToFloatInvertsReal : 1 ≤ floatExponent 0x00800000 ∧ floatExponent 0x00800000 ≤ 254 ∧
    1 ≤ floatExponent 0xFF7FFFFF ∧ floatExponent 0xFF7FFFFF ≤ 254 := by decide

theorem witness_SplitTruncatesAndRounds : floatClass hardware 0xC70000FF = .finite ∧ (1#16 : Half) ≠ 0 ∧
    -32769 < (realOf hardware 0xC70000FF).toRat ∧ (realOf hardware 0xC70000FF).toRat < 32768 ∧
    floatClass hardware 0x46FFFFFF = .finite ∧ -32769 < (realOf hardware 0x46FFFFFF).toRat ∧
    (realOf hardware 0x46FFFFFF).toRat < 32768 := by decide +kernel

theorem witness_SplitTruncatesAndRounds_refused : floatClass hardware 0x7F800000 ≠ .finite ∧
    (realOf hardware 0xC7000100).toRat ≤ -32769 ∧ 32768 ≤ (realOf hardware 0x47000000).toRat := by decide +kernel

theorem witness_SplitLosesSignBelowOne : floatClass hardware 0xBF7FFFFF = .finite ∧ (0xFFFF#16 : Half) ≠ 0 ∧
    |(realOf hardware 0xBF7FFFFF).toRat| < 1 := by decide +kernel

theorem witness_JoinAddsOrSubtracts : (65535#16 : Half) ≠ 0 ∧ (0#16 : Half) = 0 ∧ 0 ≤ (0#16 : Half).toInt ∧
    ¬ 0 ≤ (0xFFFF#16 : Half).toInt := by decide

theorem witness_SplitThenJoinWithinHalfUnit : floatClass hardware 0xBF000000 = .finite ∧
    (-1 < (realOf hardware 0xBF000000).toRat ∧ (realOf hardware 0xBF000000).toRat < 0) ∧
    0 ≤ (realOf hardware 0x80000000).toRat ∧ (realOf hardware 0xBF800000).toRat ≤ -1 ∧
    -32769 < (realOf hardware 0xBF800000).toRat ∧ (realOf hardware 0xBF800000).toRat < 32768 := by decide +kernel

/-- 255.0 as uint8 is in range, 255.5 rounds to 256 and is not; a value of -0.5 rounds to -1. -/
theorem witness_QuantRoundsThenChecksRange : intFormat 0 = some ⟨8, false⟩ ∧
    IsRoundAway ((realOf hardware 0x437F0000).toRat * (1#16).toNat / (1#16).toNat) 255 ∧
    IsRoundAway ((realOf hardware 0x437F8000).toRat * (1#16).toNat / (1#16).toNat) 256 ∧
    IsRoundAway ((realOf hardware 0xBF000000).toRat * (1#16).toNat / (1#16).toNat) (-1) ∧
    (IntFormat.mk 8 false).lo = 0 ∧ (IntFormat.mk 8 false).hi = 255 := by
  unfold IsRoundAway
  decide +kernel

theorem witness_QuantRoundsThenChecksRange_refused : floatClass hardware 0x7FC00000 ≠ .finite ∧
    (0xFB#8).toNat % 4 = 3 := by decide

theorem witness_DequantScalesLowBits : intFormat 0 = some ⟨8, false⟩ ∧ intFormat 6 = some ⟨32, true⟩ ∧
    (1#16 : Half) ≠ 0 ∧ (0x07#8).toNat % 4 = 3 := by decide

theorem witness_QuantThenDequantWithinHalfUnit : after (.vqQuant 0xCF000000 1 1 6) State.reset =
    some ⟨State.reset.ctx, State.reset.inputs, { rz := 0x80000000 } :: State.reset.responses⟩ := by decide +kernel

/-- 8.191 V is the full field 4095, 8.2 V and -0.001 V do not fit, 0 V is 0. -/
theorem witness_CellDPacksIdAndVoltage : floatClass hardware 0x41030E56 = .finite ∧
    IsRoundAway ((realOf hardware 0x41030E56).toRat * 500) ((4095 : Nat) : Int) ∧
    IsRoundAway ((realOf hardware 0x00000000).toRat * 500) ((0 : Nat) : Int) ∧
    IsRoundAway ((realOf hardware 0x41033333).toRat * 500) 4100 ∧
    IsRoundAway ((realOf hardware 0xBA83126F).toRat * 500) (-1) ∧ floatClass hardware 0xFF800000 ≠ .finite := by
  unfold IsRoundAway
  decide +kernel

theorem witness_CellSpPacksTwoVoltages : floatClass hardware 0x3B03126F = .finite ∧
    floatClass hardware 0x41030A3D = .finite ∧
    IsRoundAway ((realOf hardware 0x3B03126F).toRat * 500) ((1 : Nat) : Int) ∧
    IsRoundAway ((realOf hardware 0x41030A3D).toRat * 500) ((4095 : Nat) : Int) := by
  unfold IsRoundAway
  decide +kernel

/-- The same voltages meet the hypotheses for an id and a count above 15. -/
theorem witness_CellIdIsMasked : floatClass hardware 0x41030E56 = .finite ∧ floatClass hardware 0x00000000 = .finite ∧
    IsRoundAway ((realOf hardware 0x41030E56).toRat * 500) ((4095 : Nat) : Int) ∧
    IsRoundAway ((realOf hardware 0x00000000).toRat * 500) ((0 : Nat) : Int) ∧
    (answer (.vqCellSp 0x12 0x36 0x41030E56 0)).map Response.st = some 0 := by
  unfold IsRoundAway
  decide +kernel

theorem witness_CellIdWithinDutyComesThrough : Instr.meetsHostDuties (Instr.vqCellD 15 0) = true ∧
    after (.vqCellD 15 0) State.reset = some ⟨Context.clear, [], [{ rk := 0xF0, rz := 0x000000F0 }]⟩ ∧
    Instr.meetsHostDuties (Instr.vqCellSp 15 15 0 0) = true ∧
    after (.vqCellSp 15 15 0 0) State.reset = some ⟨Context.clear, [], [{ rz := 0xFF }]⟩ := by decide +kernel

theorem witness_FeedFollowsTheFourteenEdges : (0x00#8 : Byte) ≠ 0x5E ∧ (0x5E#8 : Byte) ≠ 0x5D ∧
    (0x5D#8 : Byte) ≠ 0x3E ∧ (0x5D#8 : Byte) ≠ 0x3D := by decide

theorem witness_FramingErrorHasExactlyTwoCauses : (withCtx ⟨.escapePending, 0, 0, 0, 0⟩).ctx.state = .escapePending ∧
    (0x5E#8 : Byte) ≠ 0x3E ∧ (0x5E#8 : Byte) ≠ 0x3D ∧ (withCtx ⟨.waitEnd, 0, 0, 0, 0⟩).ctx.state = .waitEnd ∧
    (0x5D#8 : Byte) ≠ 0x5E := by decide

theorem witness_FrameEventOnlyAtEndMarker : after (.dfFeed 0x5E) (withCtx ⟨.waitEnd, 0, 2, 0xEC, 0xFF⟩) =
    some ⟨Context.clear, [], [{ ev := 1, rk := 2, rx := 0xFFEC }]⟩ := by decide

theorem witness_DeframeInvertsFrame : (Context.mk .waitStart 1 0x56 0x34 0x12).state = .waitStart ∧
    (vecBytes 0x005E3D5D3E5D105E).take (7#4 : BitVec 4).toNat = [0x5E, 0x10, 0x5D, 0x3E, 0x5D, 0x3D, 0x5E] := by decide

theorem witness_FrameSequencesAreDelivered : [(0x02#8, 0xFFEC#16), (0x5E#8, 0x5D5E#16)].flatMap
    (fun f => frame hardware f.1 f.2) =
      [0x5E, 0x02, 0xEC, 0xFF, 0x5E, 0x5E, 0x5E, 0x5D, 0x3E, 0x5D, 0x3D, 0x5E] := by decide

theorem witness_SharedMarkerLosesSecondFrame : (0xEC#8 : Byte) ≠ 0x5D ∧ (0xFF#8 : Byte) ≠ 0x5D ∧
    (0x03#8 : Byte) ≠ 0x5E ∧ (0x64#8 : Byte) ≠ 0x5E ∧ (0x00#8 : Byte) ≠ 0x5E := by decide

theorem witness_IdleBytesAreSkipped : ∀ b ∈ [0x00#8, 0x5D#8, 0xFF#8], b ≠ 0x5E := by decide

theorem witness_GetStateReturnsToken : ∀ p ∈ [(DfState.waitStart, 0), (.readId, 1), (.readDataLow, 2),
    (.readDataHigh, 3), (.escapePending, 4), (.waitEnd, 5)], ((withCtx ⟨p.1, 1, 2, 3, 4⟩).ctx.state, p.2) = p := by
  decide

theorem witness_SetStateLoadsToken : (DfState.waitStart, (0xFFFFFFF0#32).toNat % 8) = (.waitStart, 0) ∧
    (DfState.waitEnd, (0x12345675#32).toNat % 8) = (.waitEnd, 5) ∧ 5 < (0x00000006#32).toNat % 8 ∧
    5 < (0xFFFFFFFF#32).toNat % 8 := by decide

theorem witness_TokenSaveAndRestore : (0xFFFFFFF0#32).toNat % 8 ≤ 5 ∧ (0xFFFFFFFD#32).toNat % 8 ≤ 5 := by decide

theorem witness_FoldAlgebra : (0x01#8 : Byte) ≠ 0 ∧ [0x01#8, 0x02#8].Perm [0x02#8, 0x01#8] := by decide

theorem witness_CkSumFoldsFirstBytes : (8#8).toNat ≤ 8 ∧ 8 < (9#8).toNat := by decide

theorem witness_VerifyOfBuiltPackets : (0xFE#8 : Byte) ≠ 0x00 ∧ (0xFE#8 : Byte) ≠ 0xFF ∧
    ¬ ((0x0001#16 : Half) = 0 ∧ (0#32 : Word) = 0) := by decide

/-- The empty answer is accepted; bit 8 and bit 63 are the ends of the checked bytes; `AB FF 00 …` takes the
exchange of (c) and the reordering of (d). -/
theorem witness_VerifyDetection : verify hardware (vecBytes 0xFF00000000000000) = true ∧ 8 ≤ 8 ∧ 63 < 64 ∧
    (vecBytes 0xFF00000000000000).drop 1 = (vecBytes 0xFF0000000000007E).drop 1 ∧
    (vecBytes 0xFF00000000000000)[7] ≠ 0 ∧
    ((vecBytes 0x10000004D2091010).drop 1).Perm ((vecBytes 0x10000004D2091010).drop 1) := by decide

theorem witness_SpDecodeChecksThenExtracts : foldOfSum ((vecBytes 0x100000D204091010).drop 1) ≠ 254 ∧
    foldOfSum ((vecBytes 0x10000004D2091010).drop 1) = 255 ∧
    foldOfSum ((vecBytes 0x00000004D2091010).drop 1) ≠ 255 := by decide

theorem witness_StepAlwaysAnswers : (asked .spEmpty).inputs = .request (encode .spEmpty) :: [] := by decide

theorem witness_SideEffectsAreConfined_idempotent :
    exec (.dfSetState 0x0001240C) State.reset = .next ⟨⟨.escapePending, 1, 0x24, 0x01, 0⟩, [], [{}]⟩ ∧
    exec (.dfSetState 0x0001240C) ⟨⟨.escapePending, 1, 0x24, 0x01, 0⟩, [], [{}]⟩ =
      .next ⟨⟨.escapePending, 1, 0x24, 0x01, 0⟩, [], [{}, {}]⟩ := ⟨rfl, rfl⟩

theorem witness_FramingErrorHasExactlyTwoCauses_others :
    after (.spDecode 0) State.reset = some ⟨Context.clear, [], [{ st := 2 }]⟩ := by decide

end Sys2Proof.Tests
end

section
/-! PROOFS. The scope family (00_scope.md R9, R15, R82): binary32 patterns and their exact values, `toFloat`, and the
answer that every step gives. -/

namespace Sys2Proof.Scope

open Sys2Proof.Machine

/-! ### Powers of two and signs -/

/-- A power of two written as a quotient of two natural powers, one of which is 1: how the model holds an exact
scale. -/
theorem two_zpow_eq_div (z : Int) : (2 : Rat) ^ z = 2 ^ z.toNat / 2 ^ (-z).toNat := by
  rw [← zpow_natCast, ← zpow_natCast, ← zpow_sub₀ (by norm_num)]
  congr 1
  omega

/-- The least 24-bit significand, in units of `2^(e - 23)`, stands for the start of the binade of `2^e`. -/
theorem two_pow_23_mul_unit (e : Int) : (2 : Rat) ^ 23 * 2 ^ (e - 23) = 2 ^ e := by
  rw [← zpow_natCast, ← zpow_add₀ (by norm_num)]
  congr 1
  push_cast
  ring

theorem two_pow_24_mul_unit (e : Int) : (2 : Rat) ^ 24 * 2 ^ (e - 23) = 2 ^ (e + 1) := by
  rw [zpow_add_one₀ (by norm_num), ← two_pow_23_mul_unit e]
  ring

/-- The sign of a pattern or of a number as a factor. -/
def sign (neg : Bool) : Rat := if neg then -1 else 1

theorem sign_mul_self (neg : Bool) : sign neg * sign neg = 1 := by cases neg <;> norm_num [sign]

theorem abs_sign_mul (neg : Bool) (x : Rat) : |sign neg * x| = |x| := by cases neg <;> simp [sign]

/-! ### The fields of a pattern (R82) -/

/-- The pattern of a sign and the 31 bits below it, exponent field above fraction field. -/
def pack (neg : Bool) (mag : Nat) : Word := BitVec.ofNat 32 ((if neg then 2 ^ 31 else 0) + mag)

theorem floatExponent_eq (f : Word) : floatExponent f = f.toNat / 2 ^ 23 % 2 ^ 8 := by
  rw [floatExponent, BitVec.extractLsb'_toNat, Nat.shiftRight_eq_div_pow]

theorem floatFraction_eq (f : Word) : floatFraction f = f.toNat % 2 ^ 23 := by
  rw [floatFraction, BitVec.extractLsb'_toNat, Nat.shiftRight_zero]

theorem floatExponent_lt (f : Word) : floatExponent f < 2 ^ 8 := BitVec.isLt _

theorem floatFraction_lt (f : Word) : floatFraction f < 2 ^ 23 := BitVec.isLt _

theorem toNat_pack (neg : Bool) {mag : Nat} (h : mag < 2 ^ 31) :
    (pack neg mag).toNat = (if neg then 2 ^ 31 else 0) + mag := by
  rw [pack, BitVec.toNat_ofNat, Nat.mod_eq_of_lt]
  split <;> omega

theorem msb_pack (neg : Bool) {mag : Nat} (h : mag < 2 ^ 31) : (pack neg mag).msb = neg := by
  rw [BitVec.msb_eq_decide, toNat_pack neg h]
  cases neg with
  | false => simpa using h
  | true => simp

theorem floatExponent_pack (neg : Bool) {mag : Nat} (h : mag < 2 ^ 31) :
    floatExponent (pack neg mag) = mag / 2 ^ 23 := by
  rw [floatExponent_eq, toNat_pack neg h]
  split <;> omega

theorem floatFraction_pack (neg : Bool) {mag : Nat} (h : mag < 2 ^ 31) :
    floatFraction (pack neg mag) = mag % 2 ^ 23 := by
  rw [floatFraction_eq, toNat_pack neg h]
  split <;> omega

/-- A pattern is put together again from its three fields. -/
theorem pack_fields (f : Word) : pack f.msb (floatExponent f * 2 ^ 23 + floatFraction f) = f := by
  have hE := floatExponent_eq f
  have hF := floatFraction_eq f
  have hlt : f.toNat < 2 ^ 32 := f.isLt
  have hE' := floatExponent_lt f
  have hF' := floatFraction_lt f
  apply BitVec.eq_of_toNat_eq
  rw [toNat_pack _ (by omega), BitVec.msb_eq_decide]
  simp only [decide_eq_true_eq]
  split <;> omega

theorem floatClass_finite_iff (f : Word) : floatClass hardware f = .finite ↔ floatExponent f ≠ 255 := by
  change (if floatExponent f = 255 then (if floatFraction f = 0 then FloatClass.inf else .nan) else .finite) =
    .finite ↔ _
  split
  · split <;> simp_all
  · simp_all

/-! ### The exact value of a pattern (R9) -/

/-- The significand of a pattern, its hidden bit included: an integer below `2^24`. -/
def significand (f : Word) : Nat := if floatExponent f = 0 then floatFraction f else 2 ^ 23 + floatFraction f

/-- The exponent of the unit in the last place of a pattern; subnormals share that of exponent field 1. -/
def unitExponent (f : Word) : Int := (if floatExponent f = 0 then 1 else floatExponent f : Nat) - 150

theorem significand_lt (f : Word) : significand f < 2 ^ 24 := by
  have := floatFraction_lt f
  unfold significand
  split <;> omega

theorem realOf_num (f : Word) : (realOf hardware f).num =
    (if f.msb then -1 else 1) * ((significand f * 2 ^ (unitExponent f).toNat : Nat) : Int) := by
  have hexp : (unitExponent f).toNat = (if floatExponent f = 0 then 1 else floatExponent f) - 150 := by
    unfold unitExponent; omega
  rw [hexp]
  change (if f.msb then -((significand f * 2 ^ _ : Nat) : Int) else ((significand f * 2 ^ _ : Nat) : Int)) = _
  split
  · exact (neg_one_mul _).symm
  · exact (one_mul _).symm

theorem realOf_den (f : Word) : (realOf hardware f).den = 2 ^ (-unitExponent f).toNat := by
  have hexp : (-unitExponent f).toNat = 150 - (if floatExponent f = 0 then 1 else floatExponent f) := by
    unfold unitExponent; omega
  rw [hexp]
  rfl

/-- The value of a pattern: its sign, its significand and its unit in the last place. -/
theorem realOf_toRat (f : Word) : (realOf hardware f).toRat =
    sign f.msb * ((significand f : Rat) * 2 ^ unitExponent f) := by
  rw [Frac.toRat, realOf_num, realOf_den, two_zpow_eq_div, sign]
  push_cast
  split <;> ring

theorem abs_realOf (f : Word) : |(realOf hardware f).toRat| = (significand f : Rat) * 2 ^ unitExponent f := by
  rw [realOf_toRat, abs_sign_mul, abs_of_nonneg (by positivity)]

/-- The grid of the patterns: from `2^e` up every value is a multiple of `2^(e - 23)`. -/
theorem realOf_grid (f : Word) (e : Int) :
    |(realOf hardware f).toRat| < 2 ^ e ∨ ∃ j : Int, (realOf hardware f).toRat = j * 2 ^ (e - 23) := by
  rcases le_or_gt (e - 23) (unitExponent f) with hle | hlt
  · refine .inr ⟨(if f.msb then -1 else 1) * (significand f * 2 ^ (unitExponent f - (e - 23)).toNat : Nat), ?_⟩
    have hpow : (2 : Rat) ^ unitExponent f = 2 ^ (unitExponent f - (e - 23)).toNat * 2 ^ (e - 23) := by
      rw [← zpow_natCast, ← zpow_add₀ (by norm_num)]
      congr 1
      omega
    rw [realOf_toRat, hpow, sign]
    push_cast
    ring
  · left
    have hsig : (significand f : Rat) < 2 ^ 24 := by exact_mod_cast significand_lt f
    calc |(realOf hardware f).toRat| = significand f * 2 ^ unitExponent f := abs_realOf f
      _ ≤ significand f * 2 ^ (e - 1 - 23) := by
          gcongr
          · norm_num
          · omega
      _ < 2 ^ 24 * 2 ^ (e - 1 - 23) := by gcongr
      _ = 2 ^ e := by rw [two_pow_24_mul_unit, sub_add_cancel]

/-- Settles O19: the model's value by significand and unit, in the two cases of the exponent field. -/
theorem realIsTheBinary32Value : Obligations.RealIsTheBinary32Value := by
  intro f _
  rw [realOf_toRat, sign, significand, unitExponent]
  by_cases h : floatExponent f = 0
  · simp only [if_pos h]; norm_num
  · simp only [if_neg h]

/-! ### The parts of `toFloat` as functions of the rational -/

theorem abs_toRat (q : Frac) : |q.toRat| = (q.num.natAbs : Rat) / q.den := by
  rw [Frac.toRat, abs_div, Nat.abs_cast, Nat.cast_natAbs, Int.cast_abs]

theorem toRat_eq_sign_mul_abs (q : Frac) : q.toRat = sign (decide (q.num < 0)) * |q.toRat| := by
  rw [abs_toRat, Frac.toRat, Nat.cast_natAbs, Int.cast_abs, sign]
  simp only [decide_eq_true_eq]
  split
  next h => rw [abs_of_neg (by exact_mod_cast h)]; ring
  next h => rw [abs_of_nonneg (by exact_mod_cast not_lt.1 h), one_mul]

theorem toRat_eq_zero_iff {q : Frac} (hd : q.den ≠ 0) : q.toRat = 0 ↔ q.num = 0 := by
  simp [Frac.toRat, hd]

theorem toRat_neg_iff {q : Frac} (hd : q.den ≠ 0) : q.toRat < 0 ↔ q.num < 0 := by
  have hpos : (0 : Rat) < q.den := by exact_mod_cast Nat.pos_of_ne_zero hd
  rw [Frac.toRat, div_lt_iff₀ hpos, zero_mul, Int.cast_lt_zero]

theorem log_two_eq {a : Rat} {e : Int} (hlo : 2 ^ e ≤ a) (hhi : a < 2 ^ (e + 1)) : Int.log 2 a = e := by
  have ha : 0 < a := lt_of_lt_of_le (by positivity) hlo
  have h1 : e ≤ Int.log 2 a := (Int.zpow_le_iff_le_log one_lt_two ha).1 (by exact_mod_cast hlo)
  have h2 : Int.log 2 a < e + 1 := (Int.lt_zpow_iff_log_lt one_lt_two ha).1 (by exact_mod_cast hhi)
  omega

theorem floorLog2_eq_log {n d : Nat} (hn : 0 < n) (hd : 0 < d) : floorLog2 n d = Int.log 2 ((n : Rat) / d) :=
  (log_two_eq (floorLog2_spec n d hn hd).1 (floorLog2_spec n d hn hd).2).symm

/-- `roundEven` is the integer within half a unit of the quotient, even at a tie. -/
theorem abs_roundEven_sub_le (n : Nat) {d : Nat} (hd : 0 < d) :
    |(roundEven n d : Rat) - n / d| ≤ 1 / 2 ∧ (|(roundEven n d : Rat) - n / d| = 1 / 2 → roundEven n d % 2 = 0) := by
  obtain ⟨hup, hlo, heven⟩ := roundEven_spec n d hd
  have hdq : (0 : Rat) < d := by exact_mod_cast hd
  have hupq : 2 * (roundEven n d : Rat) * d ≤ 2 * n + d := by exact_mod_cast hup
  have hloq : 2 * (n : Rat) ≤ 2 * roundEven n d * d + d := by exact_mod_cast hlo
  have hn : (n : Rat) = n / d * d := by field_simp
  generalize (n : Rat) / d = t at hn ⊢
  rw [hn] at hupq hloq
  refine ⟨abs_le.2 ⟨by nlinarith, by nlinarith⟩, fun htie => heven ?_⟩
  rcases (abs_eq (by norm_num)).1 htie with h | h
  · left
    have : 2 * (roundEven n d : Rat) * d = 2 * n + d := by rw [hn]; linear_combination 2 * (d : Rat) * h
    exact_mod_cast this
  · right
    have : 2 * (n : Rat) = 2 * roundEven n d * d + d := by rw [hn]; linear_combination -2 * (d : Rat) * h
    exact_mod_cast this

/-- Enlarging a fraction does not change its rounding. -/
theorem roundEven_mul_right (n d : Nat) {k : Nat} (hk : 0 < k) : roundEven (n * k) (d * k) = roundEven n d := by
  have hlt : 2 * (n % d * k) < d * k ↔ 2 * (n % d) < d := by rw [← mul_assoc, Nat.mul_lt_mul_right hk]
  have hgt : d * k < 2 * (n % d * k) ↔ d < 2 * (n % d) := by rw [← mul_assoc, Nat.mul_lt_mul_right hk]
  simp only [roundEven, Nat.mul_div_mul_right _ _ hk, Nat.mul_mod_mul_right, hlt, hgt]

theorem roundEven_congr {n d n' d' : Nat} (hd : 0 < d) (hd' : 0 < d') (h : n * d' = n' * d) :
    roundEven n d = roundEven n' d' := by
  rw [← roundEven_mul_right n d hd', h, mul_comm d d', roundEven_mul_right n' d' hd]

theorem roundEven_mul_self (m : Nat) {d : Nat} (hd : 0 < d) : roundEven (m * d) d = m := by
  simp [roundEven, Nat.mul_div_cancel _ hd, hd]

/-- The significand that `toFloat` gives a magnitude in units of `2^(e - 23)`. -/
def significandAt (q : Frac) (e : Int) : Nat :=
  roundEven (q.num.natAbs * 2 ^ (23 - e).toNat) (q.den * 2 ^ (e - 23).toNat)

/-- `toFloat` by its parts: the binade of the magnitude, no lower than the least normal one, then the significand
above the exponent field. -/
theorem toFloat_eq_pack {q : Frac} (hd : q.den ≠ 0) (hq : q.num ≠ 0) {e : Int}
    (he : e = max (Int.log 2 |q.toRat|) (-126)) :
    toFloat hardware q =
      pack (decide (q.num < 0)) (min ((e + 126).toNat * 2 ^ 23 + significandAt q e) 0x7F800000) := by
  rw [abs_toRat, ← floorLog2_eq_log (Int.natAbs_pos.2 hq) (Nat.pos_of_ne_zero hd)] at he
  subst he
  simp only [pack, decide_eq_true_eq]
  exact if_neg hq

/-- The result of `toFloat` in a normal binade below infinity: the rounded significand in its place. -/
theorem toFloat_of_normal {q : Frac} (hd : q.den ≠ 0) (hq : q.num ≠ 0) {e : Int} (hlog : Int.log 2 |q.toRat| = e)
    (he : -126 ≤ e) (hmax : (e + 126).toNat * 2 ^ 23 + significandAt q e ≤ 0x7F800000) :
    toFloat hardware q = pack (decide (q.num < 0)) ((e + 126).toNat * 2 ^ 23 + significandAt q e) := by
  rw [toFloat_eq_pack hd hq rfl, hlog, max_eq_left he, min_eq_left hmax]

theorem toFloat_zero {q : Frac} (h : q.num = 0) : toFloat hardware q = 0#32 := if_pos h

theorem significandAt_congr {p q : Frac} (hp : p.den ≠ 0) (hq : q.den ≠ 0) (h : p.toRat = q.toRat) (e : Int) :
    significandAt p e = significandAt q e := by
  have hp' : (p.den : Rat) ≠ 0 := by exact_mod_cast hp
  have hq' : (q.den : Rat) ≠ 0 := by exact_mod_cast hq
  have hcross : p.num.natAbs * q.den = q.num.natAbs * p.den := by
    have := congrArg abs h
    rw [abs_toRat, abs_toRat, div_eq_div_iff hp' hq'] at this
    exact_mod_cast this
  refine roundEven_congr (by positivity) (by positivity) ?_
  linear_combination 2 ^ (23 - e).toNat * 2 ^ (e - 23).toNat * hcross

/-- Settles O21: every part of `toFloat` is a function of the rational. -/
theorem toFloatDependsOnValueOnly : Obligations.ToFloatDependsOnValueOnly := by
  intro p q hp hq h
  have hzero : p.num = 0 ↔ q.num = 0 := by rw [← toRat_eq_zero_iff hp, h, toRat_eq_zero_iff hq]
  have hneg : p.num < 0 ↔ q.num < 0 := by rw [← toRat_neg_iff hp, h, toRat_neg_iff hq]
  by_cases h0 : p.num = 0
  · rw [toFloat_zero h0, toFloat_zero (hzero.1 h0)]
  · rw [toFloat_eq_pack hp h0 rfl, toFloat_eq_pack hq (mt hzero.2 h0) rfl, significandAt_congr hp hq h]
    simp only [hneg, h]

/-! ### A normal pattern is its own nearest float -/

/-- The magnitude of a fraction in units of `2^(e - 23)`, as `significandAt` rounds it. -/
theorem scaled_abs_toRat (q : Frac) (e : Int) :
    ((q.num.natAbs * 2 ^ (23 - e).toNat : Nat) : Rat) / (q.den * 2 ^ (e - 23).toNat : Nat) =
      |q.toRat| / 2 ^ (e - 23) := by
  have hneg : 23 - e = -(e - 23) := by ring
  rw [abs_toRat, two_zpow_eq_div (e - 23), hneg]
  push_cast
  field_simp

theorem significandAt_of_abs_eq {q : Frac} (hd : q.den ≠ 0) {m : Nat} {e : Int}
    (h : |q.toRat| = m * 2 ^ (e - 23)) : significandAt q e = m := by
  have hpos : 0 < q.den * 2 ^ (e - 23).toNat := by positivity
  have hscaled := scaled_abs_toRat q e
  rw [h, mul_div_cancel_right₀ _ (by positivity), div_eq_iff (by exact_mod_cast hpos.ne')] at hscaled
  have hexact : q.num.natAbs * 2 ^ (23 - e).toNat = m * (q.den * 2 ^ (e - 23).toNat) := by exact_mod_cast hscaled
  rw [significandAt, hexact, roundEven_mul_self m hpos]

theorem realOf_num_neg_iff {f : Word} (h : significand f ≠ 0) : (realOf hardware f).num < 0 ↔ f.msb = true := by
  have hpos : (0 : Int) < (significand f * 2 ^ (unitExponent f).toNat : Nat) := by positivity
  rw [realOf_num]
  split
  next hm => exact iff_of_true (by rw [neg_one_mul]; exact neg_lt_zero.2 hpos) hm
  next hm => exact iff_of_false (by rw [one_mul]; exact hpos.le.not_gt) hm

/-- A significand of 24 bits in units of `2^(e - 23)` is a number of the binade of `2^e`. -/
theorem log_two_of_significand {m : Nat} (hlo : 2 ^ 23 ≤ m) (hhi : m < 2 ^ 24) (e : Int) :
    Int.log 2 ((m : Rat) * 2 ^ (e - 23)) = e := by
  have hloq : (2 : Rat) ^ 23 ≤ m := by exact_mod_cast hlo
  have hhiq : (m : Rat) < 2 ^ 24 := by exact_mod_cast hhi
  apply log_two_eq
  · rw [← two_pow_23_mul_unit]; gcongr
  · rw [← two_pow_24_mul_unit]; gcongr

/-- Settles O22: the value of a normal pattern lies in the binade of its exponent field and is a whole number of
units there, so the rounding is exact. -/
theorem toFloatInvertsReal : Obligations.ToFloatInvertsReal := by
  intro f hlo hhi
  have hd := realOf_den_ne_zero f
  have hF := floatFraction_lt f
  have hsig : significand f = 2 ^ 23 + floatFraction f := if_neg (by omega)
  have habs : |(realOf hardware f).toRat| = significand f * 2 ^ ((floatExponent f : Int) - 127 - 23) := by
    rw [abs_realOf, unitExponent, if_neg (by omega), sub_sub]
    norm_num
  have hlog : Int.log 2 |(realOf hardware f).toRat| = (floatExponent f : Int) - 127 := by
    rw [habs, log_two_of_significand (by omega) (by omega)]
  have hnum : (realOf hardware f).num ≠ 0 := by
    rw [Ne, ← toRat_eq_zero_iff hd, ← abs_eq_zero, habs, hsig]
    positivity
  have hmag : ((floatExponent f : Int) - 127 + 126).toNat * 2 ^ 23 + significand f =
      floatExponent f * 2 ^ 23 + floatFraction f := by omega
  have hm := significandAt_of_abs_eq hd habs
  rw [toFloat_of_normal hd hnum hlog (by omega) (by omega), hm, hmag]
  simp only [realOf_num_neg_iff (f := f) (by omega), Bool.decide_eq_true, pack_fields]

/-! ### `toFloat` is the nearest pattern -/

/-- `significandAt` is the integer within half a unit of the magnitude, even at a tie. -/
theorem significandAt_nearest {q : Frac} (hd : q.den ≠ 0) (e : Int) :
    |(significandAt q e : Rat) - |q.toRat| / 2 ^ (e - 23)| ≤ 1 / 2 ∧
      (|(significandAt q e : Rat) - |q.toRat| / 2 ^ (e - 23)| = 1 / 2 → significandAt q e % 2 = 0) := by
  rw [← scaled_abs_toRat]
  exact abs_roundEven_sub_le _ (by positivity)

/-- A rounded significand lies in the closed binade: it may reach `2^24`, the carry into the next exponent. -/
theorem significandAt_mem {q : Frac} (hd : q.den ≠ 0) {e : Int} (hlo : 2 ^ e ≤ |q.toRat|)
    (hhi : |q.toRat| < 2 ^ (e + 1)) : 2 ^ 23 ≤ significandAt q e ∧ significandAt q e ≤ 2 ^ 24 := by
  have hround := abs_le.1 (significandAt_nearest hd e).1
  have hu : (0 : Rat) < 2 ^ (e - 23) := by positivity
  have hloq : (2 : Rat) ^ 23 ≤ |q.toRat| / 2 ^ (e - 23) := by
    rwa [le_div_iff₀ hu, two_pow_23_mul_unit]
  have hhiq : |q.toRat| / 2 ^ (e - 23) < 2 ^ 24 := by
    rwa [div_lt_iff₀ hu, two_pow_24_mul_unit]
  have hlt : (2 ^ 23 : Rat) < significandAt q e + 1 := by linarith
  have hgt : (significandAt q e : Rat) < 2 ^ 24 + 1 := by linarith
  exact ⟨Nat.le_of_lt_succ (by exact_mod_cast hlt), Nat.le_of_lt_succ (by exact_mod_cast hgt)⟩

/-- The magnitude of a pattern packed in the binade of `2^e`, the carry of the significand included. -/
theorem abs_realOf_pack (neg : Bool) {m : Nat} {e : Int} (hm : 2 ^ 23 ≤ m ∧ m ≤ 2 ^ 24) (he : -126 ≤ e ∧ e ≤ 126) :
    |(realOf hardware (pack neg ((e + 126).toNat * 2 ^ 23 + m))).toRat| = m * 2 ^ (e - 23) := by
  set f := pack neg ((e + 126).toNat * 2 ^ 23 + m)
  have hE : floatExponent f = ((e + 126).toNat * 2 ^ 23 + m) / 2 ^ 23 := floatExponent_pack neg (by omega)
  have hF : floatFraction f = ((e + 126).toNat * 2 ^ 23 + m) % 2 ^ 23 := floatFraction_pack neg (by omega)
  rw [abs_realOf, significand, unitExponent, if_neg (by omega), if_neg (by omega)]
  rcases hm.2.lt_or_eq with hlt | rfl
  · have hs : 2 ^ 23 + floatFraction f = m := by omega
    have hk : (floatExponent f : Int) - 150 = e - 23 := by omega
    rw [hs, hk]
  · have hs : 2 ^ 23 + floatFraction f = 2 ^ 23 := by omega
    have hk : (floatExponent f : Int) - 150 = e - 23 + 1 := by omega
    rw [hs, hk, zpow_add_one₀ (by norm_num)]
    push_cast
    ring

/-- An integer within half a unit of `t` is a nearest integer, and another one is as near only at a tie. -/
theorem nearest_of_abs_sub_le_half {m : Int} {t : Rat} (h : |m - t| ≤ 1 / 2) (j : Int) :
    |m - t| ≤ |j - t| ∧ (|m - t| = |j - t| → j ≠ m → |m - t| = 1 / 2) := by
  rcases eq_or_ne j m with rfl | hne
  · exact ⟨le_rfl, fun _ hj => absurd rfl hj⟩
  · have hone : (1 : Rat) ≤ |(j : Rat) - m| := by exact_mod_cast Int.one_le_abs (sub_ne_zero.2 hne)
    have htri : |(j : Rat) - m| ≤ |j - t| + |m - t| := by
      rw [abs_sub_comm (m : Rat) t]; exact abs_sub_le _ _ _
    exact ⟨by linarith, fun heq _ => by linarith⟩

/-- Rounding in units of `u` is nearest among the multiples of `u` and everything below a multiple that lies at or
below the rounded number. -/
theorem nearest_on_grid {m b : Int} {u a x : Rat} (hu : 0 < u) (hm : |m - a / u| ≤ 1 / 2) (hb : b * u ≤ a)
    (hx : x < b * u ∨ ∃ j : Int, x = j * u) :
    |m * u - a| ≤ |x - a| ∧ (|m * u - a| = |x - a| → x ≠ m * u → |m - a / u| = 1 / 2) := by
  have hscale : ∀ i : Int, |(i : Rat) * u - a| = |i - a / u| * u := by
    intro i
    rw [← abs_of_pos hu, ← abs_mul, abs_of_pos hu, sub_mul, div_mul_cancel₀ _ hu.ne']
  rcases hx with hx | ⟨j, rfl⟩
  · have hmb : |(m : Rat) * u - a| ≤ |b * u - a| := by
      rw [hscale, hscale]
      exact mul_le_mul_of_nonneg_right (nearest_of_abs_sub_le_half hm b).1 hu.le
    have hbx : |(b : Rat) * u - a| < |x - a| := by
      rw [abs_of_nonpos (by linarith), abs_of_neg (by linarith)]
      linarith
    exact ⟨by linarith, fun heq => by linarith⟩
  · obtain ⟨hle, htie⟩ := nearest_of_abs_sub_le_half hm j
    rw [hscale, hscale]
    exact ⟨mul_le_mul_of_nonneg_right hle hu.le,
      fun heq hne => htie (mul_right_cancel₀ hu.ne' heq) fun hj => hne (by rw [hj])⟩

theorem sign_mul_realOf_pack (neg : Bool) {mag : Nat} (h : mag < 2 ^ 31) :
    sign neg * (realOf hardware (pack neg mag)).toRat = |(realOf hardware (pack neg mag)).toRat| := by
  rw [abs_realOf, realOf_toRat, msb_pack neg h, ← mul_assoc, sign_mul_self, one_mul]

/-- A distance to a number is a distance to its magnitude. -/
theorem abs_sub_toRat (x : Rat) (q : Frac) : |x - q.toRat| = abs (sign (decide (q.num < 0)) * x - |q.toRat|) := by
  rw [← abs_sign_mul (decide (q.num < 0)), mul_sub]
  conv_lhs => rw [toRat_eq_sign_mul_abs q, ← mul_assoc, sign_mul_self, one_mul]

theorem realOf_grid_sign (neg : Bool) (g : Word) (e : Int) :
    sign neg * (realOf hardware g).toRat < 2 ^ e ∨
      ∃ j : Int, sign neg * (realOf hardware g).toRat = j * 2 ^ (e - 23) := by
  rcases realOf_grid g e with hlt | ⟨j, hj⟩
  · exact .inl (lt_of_le_of_lt (le_abs_self _) (by rwa [abs_sign_mul]))
  · refine .inr ⟨if neg then -j else j, ?_⟩
    rw [hj]
    cases neg <;> simp [sign]

/-- In a normal binade `toFloat` gives a finite pattern, none is nearer, and another one as near leaves it an even
fraction. -/
theorem toFloat_nearest {q : Frac} (hd : q.den ≠ 0) {e : Int} (he : -126 ≤ e ∧ e ≤ 126) (hlo : 2 ^ e ≤ |q.toRat|)
    (hhi : |q.toRat| < 2 ^ (e + 1)) :
    floatClass hardware (toFloat hardware q) = .finite ∧
    ∀ g : Word,
      |(realOf hardware (toFloat hardware q)).toRat - q.toRat| ≤ |(realOf hardware g).toRat - q.toRat| ∧
      (|(realOf hardware (toFloat hardware q)).toRat - q.toRat| = |(realOf hardware g).toRat - q.toRat| →
        (realOf hardware g).toRat ≠ (realOf hardware (toFloat hardware q)).toRat →
          floatFraction (toFloat hardware q) % 2 = 0) := by
  have hu : (0 : Rat) < 2 ^ (e - 23) := by positivity
  have hq : q.num ≠ 0 := by
    rw [Ne, ← toRat_eq_zero_iff hd, ← abs_eq_zero]
    exact (lt_of_lt_of_le (by positivity) hlo).ne'
  have hm := significandAt_mem hd hlo hhi
  obtain ⟨hhalf, heven⟩ := significandAt_nearest hd e
  rw [toFloat_of_normal hd hq (log_two_eq hlo hhi) he.1 (by omega)]
  set neg := decide (q.num < 0) with hneg
  set f := pack neg ((e + 126).toNat * 2 ^ 23 + significandAt q e) with hf
  have hvalue : sign neg * (realOf hardware f).toRat = (significandAt q e : Int) * 2 ^ (e - 23) := by
    rw [hf, sign_mul_realOf_pack neg (by omega), abs_realOf_pack neg hm he, Int.cast_natCast]
  refine ⟨?_, fun g => ?_⟩
  · rw [floatClass_finite_iff, hf, floatExponent_pack neg (by omega)]
    omega
  · have hgrid := realOf_grid_sign neg g e
    have hbase : ((2 ^ 23 : Int) : Rat) * 2 ^ (e - 23) = 2 ^ e := by
      rw [← two_pow_23_mul_unit e]; norm_num
    rw [← hbase] at hgrid hlo
    obtain ⟨hle, htie⟩ := nearest_on_grid (m := significandAt q e) hu (by exact_mod_cast hhalf) hlo hgrid
    rw [abs_sub_toRat _ q, abs_sub_toRat _ q, ← hneg, hvalue]
    refine ⟨hle, fun heq hne => ?_⟩
    have hne' : sign neg * (realOf hardware g).toRat ≠ (significandAt q e : Int) * 2 ^ (e - 23) := by
      rw [← hvalue]
      exact fun h => hne (mul_left_cancel₀ (left_ne_zero_of_mul_eq_one (sign_mul_self neg)) h)
    have hparity := heven (by exact_mod_cast htie heq hne')
    rw [hf, floatFraction_pack neg (by omega)]
    omega

/-- Settles O20: the range that R9 promises lies in the normal binades. -/
theorem toFloatIsNearestTiesToEven : Obligations.ToFloatIsNearestTiesToEven := by
  intro q hd
  refine ⟨toFloat_zero, fun hlo hhi => ?_⟩
  have hpos : 0 < |q.toRat| := lt_of_lt_of_le (by norm_num) hlo
  have hge : -126 ≤ Int.log 2 |q.toRat| :=
    (Int.zpow_le_iff_le_log one_lt_two hpos).1 (le_trans (by norm_num) hlo)
  have hle : Int.log 2 |q.toRat| < 48 := (Int.lt_zpow_iff_log_lt one_lt_two hpos).1 (by exact_mod_cast hhi)
  obtain ⟨hfin, hnear⟩ := toFloat_nearest hd ⟨hge, by omega⟩
    (by simpa using Int.zpow_log_le_self one_lt_two hpos)
    (by simpa using Int.lt_zpow_succ_log_self one_lt_two |q.toRat|)
  exact ⟨hfin, fun g _ => hnear g⟩

/-! ### Every step answers (R15) -/

/-- An operation ends in a next state, leaves the inputs and adds one response. -/
theorem exec_answers_once (i : Instr) (s : State) :
    ∃ t : State, exec i s = .next t ∧ t.inputs = s.inputs ∧ ∃ rsp : Response, t.responses = rsp :: s.responses := by
  obtain ⟨c, x, hexec⟩ := exec_finishes i s
  obtain ⟨rsp, hrsp, -⟩ := State.finish_responses (s := s.setContext c) (x := x)
  exact ⟨_, hexec, by simp, rsp, by simpa using hrsp⟩

/-- Settles O9: the four things a step can do, of which the two that take a request answer it. -/
theorem stepAlwaysAnswers : Obligations.StepAlwaysAnswers := by
  intro s
  obtain ⟨hin, hstep⟩ | ⟨rest, hin, hstep⟩ | ⟨r, rest, i, hin, -, hstep⟩ | ⟨r, rest, op, hin, -, hstep⟩ :=
    step_cases s
  · exact ⟨s, hstep, by simp [hin]⟩
  · exact ⟨_, hstep, by simp [hin]⟩
  · obtain ⟨t, hexec, hinputs, rsp, hrsp⟩ := exec_answers_once i s.dropInput
    refine ⟨t, hstep.trans hexec, fun r' rest' hin' => ⟨?_, rsp, hrsp⟩⟩
    rw [hinputs, State.dropInput_inputs, hin', List.tail_cons]
  · exact ⟨_, hstep, by simp [hin]⟩

end Sys2Proof.Scope
end

section
/-! PROOFS. The state family (10_state.md R26, R27, R32 to R34): what each operation does to the context, the
canonical form that every step keeps, the contexts reached from reset, and the token that saves and restores one. -/

namespace Sys2Proof.StateFamily

open Sys2Proof.Machine

/-! ### The reset state (R33) -/

/-- Settles O8. -/
theorem resetContextIsWaitStart : Obligations.ResetContextIsWaitStart := ⟨rfl, rfl⟩

/-- Settles O11. -/
theorem resetMeetsInvariants : Obligations.ResetMeetsInvariants := ⟨rfl, rfl⟩

/-! ### What an operation does to the context (R27) -/

/-- The context an operation leaves: `DF.FEED`, `DF.RESET` and `DF.SETSTATE` write it, no other operation does. -/
def contextAfter (i : Instr) (c : Context) : Context :=
  match i with
  | .dfFeed k => (dFeed hardware c k).1
  | .dfReset => Context.clear
  | .dfSetState z => (contextOfToken z).getD c
  | _ => c

/-- `exec_finishes` with the context that is written. -/
theorem exec_writes_contextAfter (i : Instr) (s : State) :
    ∃ x : Except Error Response, exec i s = .next ((s.setContext (contextAfter i s.ctx)).finish x) := by
  cases i with
  | dfSetState z =>
    cases h : contextOfToken z with
    | none => exact ⟨.error .argumentRange, by simp [exec, execDfSetState, contextAfter, h]⟩
    | some c => exact ⟨.ok {}, by simp [exec, execDfSetState, contextAfter, h]⟩
  | _ => exact ⟨_, rfl⟩

theorem exec_ctx {i : Instr} {s t : State} (h : exec i s = .next t) : t.ctx = contextAfter i s.ctx := by
  obtain ⟨x, hexec⟩ := exec_writes_contextAfter i s
  cases hexec.symm.trans h
  simp

/-- The rows of `DF.FEED`, `DF.RESET` and `DF.SETSTATE` are the rows that write the context (R75). -/
theorem opTable_writesContext_iff :
    ∀ row ∈ opTable, row.writesContext = true ↔ row.op = 0x11#8 ∨ row.op = 0x12#8 ∨ row.op = 0x14#8 := by
  decide

theorem contextAfter_of_not_writesContext {i : Instr} {row : OpRow} (hrow : row ∈ opTable)
    (hop : row.op = (encode i).op) (hw : row.writesContext = false) (c : Context) : contextAfter i c = c := by
  have hcodes : ¬ (row.op = 0x11#8 ∨ row.op = 0x12#8 ∨ row.op = 0x14#8) := by
    rw [← opTable_writesContext_iff row hrow, hw]
    exact Bool.false_ne_true
  cases i with
  | dfFeed k => exact absurd (.inl hop) hcodes
  | dfReset => exact absurd (.inr (.inl hop)) hcodes
  | dfSetState z => exact absurd (.inr (.inr hop)) hcodes
  | _ => rfl

/-- Settles O15. -/
theorem onlyContextRowsWriteContext : Obligations.OnlyContextRowsWriteContext := by
  intro i s row hrow hop
  obtain ⟨t, hexec, hinputs, rsp, hrsp⟩ := Scope.exec_answers_once i s
  refine ⟨t, rsp, hexec, hinputs, hrsp, fun hw => ?_⟩
  rw [exec_ctx hexec, contextAfter_of_not_writesContext hrow hop hw]

/-! ### The canonical form of the context (R26, R34) -/

theorem canonical_iff_shape (c : Context) : c.canonical = true ↔
    c = ⟨.waitStart, 0, 0, 0, 0⟩ ∨ c = ⟨.readId, 0, 0, 0, 0⟩ ∨
      (∃ id, c = ⟨.readDataLow, 0, id, 0, 0⟩) ∨ (∃ id, c = ⟨.escapePending, 0, id, 0, 0⟩) ∨
      (∃ id lo, c = ⟨.readDataHigh, 0, id, lo, 0⟩) ∨ (∃ id lo, c = ⟨.escapePending, 1, id, lo, 0⟩) ∨
      (∃ id lo hi, c = ⟨.waitEnd, 0, id, lo, hi⟩) := by
  obtain ⟨st, sl, id, lo, hi⟩ := c
  cases st <;> simp [Context.canonical, Context.clear]

theorem dFeed_escape_low {b u : Byte} (hu : unescape hardware b = some u) (id lo hi : Byte) :
    dFeed hardware ⟨.escapePending, 0#1, id, lo, hi⟩ b = (⟨.readDataHigh, 0, id, u, 0⟩, .none) := by
  simp [dFeed, hu]

theorem dFeed_escape_high {b u : Byte} (hu : unescape hardware b = some u) (id lo hi : Byte) :
    dFeed hardware ⟨.escapePending, 1#1, id, lo, hi⟩ b = (⟨.waitEnd, 0, id, lo, u⟩, .none) := by
  simp [dFeed, hu]

/-- The deframer writes every register on every edge (D18), so it leaves a canonical context whatever it starts
from. -/
theorem dFeed_canonical (c : Context) (b : Byte) : (dFeed hardware c b).1.canonical = true := by
  obtain ⟨st, sl, id, lo, hi⟩ := c
  cases st with
  | waitStart => rw [dFeed_waitStart]; split <;> rfl
  | readId => simp [Context.canonical]
  | readDataLow => rw [dFeed_readDataLow]; split <;> simp [Context.canonical]
  | readDataHigh => rw [dFeed_readDataHigh]; split <;> simp [Context.canonical]
  | escapePending =>
    cases hu : unescape hardware b with
    | none => simp only [dFeed, hu]; rfl
    | some u =>
      obtain rfl | rfl := BitVec.eq_zero_or_eq_one sl
      · rw [dFeed_escape_low hu]; simp [Context.canonical]
      · rw [dFeed_escape_high hu]; simp [Context.canonical]
  | waitEnd => rw [dFeed_waitEnd]; split <;> rfl

theorem contextAfter_canonical {i : Instr} {c : Context} (hc : c.canonical = true)
    (htoken : ∀ z c', i = .dfSetState z → contextOfToken z = some c' → c'.canonical = true) :
    (contextAfter i c).canonical = true := by
  cases i with
  | dfFeed k => exact dFeed_canonical c k
  | dfReset => rfl
  | dfSetState z =>
    cases hz : contextOfToken z with
    | none => simpa [contextAfter, hz] using hc
    | some c' => simpa [contextAfter, hz] using htoken z c' rfl hz
  | _ => exact hc

/-- Settles O12, by the four things a step can do. -/
theorem canonicalContextKept : Obligations.CanonicalContextKept := by
  intro s t hs htoken hstep
  obtain ⟨-, h⟩ | ⟨rest, -, h⟩ | ⟨r, rest, i, hin, hdec, h⟩ | ⟨r, rest, op, -, -, h⟩ := step_cases s
  · cases h.symm.trans hstep
    exact hs
  · cases h.symm.trans hstep
    rfl
  · rw [exec_ctx (h.symm.trans hstep), State.dropInput_ctx]
    refine contextAfter_canonical hs fun z c hi hz => htoken r z c ?_ (hi ▸ hdec) hz
    rw [hin, List.head?_cons]
  · cases h.symm.trans hstep
    exact hs

/-! ### Runs of `DF.FEED` and `DF.RESET` -/

theorem run_succ {s s' : State} (h : step s = .next s') (n : Nat) :
    Host.Core.run Sys2Proof.core (n + 1) s = Host.Core.run Sys2Proof.core n s' := by
  have hcore : Sys2Proof.core.step s = .next s' := h
  simp only [Host.Core.run, hcore]

/-- A step takes one input, if there is one. -/
theorem step_inputs {s t : State} (h : step s = .next t) : t.inputs = s.inputs.tail := by
  obtain ⟨hin, h'⟩ | ⟨rest, -, h'⟩ | ⟨r, rest, i, -, -, h'⟩ | ⟨r, rest, op, -, -, h'⟩ := step_cases s
  · cases h'.symm.trans h
    rw [hin, List.tail_nil]
  · cases h'.symm.trans h
    rfl
  · obtain ⟨t', hexec, hinputs, -⟩ := Scope.exec_answers_once i s.dropInput
    cases (h'.trans hexec).symm.trans h
    exact hinputs
  · cases h'.symm.trans h
    rfl

/-- The input is a request of `DF.RESET` or of `DF.FEED`. -/
def IsFeedOrReset (x : Input) : Prop := x = .request (encode .dfReset) ∨ ∃ b, x = .request (encode (.dfFeed b))

theorem IsFeedOrReset.decode_ne_dfSetState {r : Request} (h : IsFeedOrReset (.request r)) (z : Word) :
    decode r ≠ .instr (.dfSetState z) := by
  obtain h | ⟨b, h⟩ := h <;>
    · cases h
      exact fun hdec => nomatch hdec

/-- Along such a run the exception of `canonicalContextKept` does not arise. -/
theorem run_canonical (n : Nat) {s t : State} (hs : s.ctx.canonical = true) (hin : ∀ x ∈ s.inputs, IsFeedOrReset x)
    (hrun : Host.Core.run Sys2Proof.core n s = .next t) : t.ctx.canonical = true := by
  induction n generalizing s with
  | zero =>
    cases hrun
    exact hs
  | succ n ih =>
    obtain ⟨s', hstep, -⟩ := Scope.stepAlwaysAnswers s
    refine ih (canonicalContextKept s s' hs (fun r z c hr hdec => ?_) hstep) (fun x hx => ?_)
      ((run_succ hstep n).symm.trans hrun)
    · exact absurd hdec ((hin _ (List.mem_of_mem_head? hr)).decode_ne_dfSetState z)
    · rw [step_inputs hstep] at hx
      exact hin x (List.mem_of_mem_tail hx)

/-- The context after a sequence of bytes is fed. -/
def feedContext (c : Context) (bs : List Byte) : Context := bs.foldl (fun c b => (dFeed hardware c b).1) c

@[simp] theorem feedContext_nil (c : Context) : feedContext c [] = c := rfl

@[simp] theorem feedContext_cons (c : Context) (b : Byte) (bs : List Byte) :
    feedContext c (b :: bs) = feedContext (dFeed hardware c b).1 bs := rfl

@[simp] theorem feedContext_append (c : Context) (as bs : List Byte) :
    feedContext c (as ++ bs) = feedContext (feedContext c as) bs := List.foldl_append

/-- What a run of `DF.FEED` requests does to the context (R84, R134). -/
theorem run_feedAll (c : Context) (bs : List Byte) (rest : List Input) (rs : List Response) :
    ∃ rs', Host.Core.run Sys2Proof.core bs.length (⟨c, feedAll bs ++ rest, rs⟩ : State) =
      .next ⟨feedContext c bs, rest, rs'⟩ := by
  induction bs generalizing c rs with
  | nil => exact ⟨rs, rfl⟩
  | cons b bs ih =>
    obtain ⟨rsp, hrsp, -⟩ := State.finish_responses
      (s := State.mk (dFeed hardware c b).1 (feedAll bs ++ rest) rs) (x := eventResult (dFeed hardware c b).2)
    have hstep : step ⟨c, feedAll (b :: bs) ++ rest, rs⟩ =
        .next ⟨(dFeed hardware c b).1, feedAll bs ++ rest, rsp :: rs⟩ := by
      rw [step_feed, execDfFeed_eq, ← hrsp]
      congr 1
      cases eventResult (dFeed hardware c b).2 <;> rfl
    obtain ⟨rs', hrun⟩ := ih (dFeed hardware c b).1 (rsp :: rs)
    exact ⟨rs', (run_succ hstep _).trans hrun⟩

theorem feedContext_esc_low (sl : BitVec 1) (id lo hi b : Byte) :
    feedContext ⟨.readDataLow, sl, id, lo, hi⟩ (esc hardware b) = ⟨.readDataHigh, 0, id, b, 0⟩ := by
  rw [esc_hardware]
  split
  next h => subst h; rfl
  next =>
    split
    next h => subst h; rfl
    next h => simp [h]

theorem feedContext_esc_high (sl : BitVec 1) (id lo hi b : Byte) :
    feedContext ⟨.readDataHigh, sl, id, lo, hi⟩ (esc hardware b) = ⟨.waitEnd, 0, id, lo, b⟩ := by
  rw [esc_hardware]
  split
  next h => subst h; rfl
  next =>
    split
    next h => subst h; rfl
    next h => simp [h]

/-- Every canonical context is where a frame that is broken off leaves the deframer. -/
theorem exists_feedContext_eq {c : Context} (h : c.canonical = true) :
    ∃ bs, feedContext Context.clear bs = c := by
  have hstart (id : Byte) : feedContext Context.clear [0x5E#8, id] = ⟨.readDataLow, 0, id, 0, 0⟩ := rfl
  obtain rfl | rfl | ⟨id, rfl⟩ | ⟨id, rfl⟩ | ⟨id, lo, rfl⟩ | ⟨id, lo, rfl⟩ | ⟨id, lo, hi, rfl⟩ :=
    (canonical_iff_shape c).1 h
  · exact ⟨[], rfl⟩
  · exact ⟨[0x5E#8], rfl⟩
  · exact ⟨[0x5E#8, id], hstart id⟩
  · exact ⟨[0x5E#8, id] ++ [0x5D#8], by rw [feedContext_append, hstart]; rfl⟩
  · exact ⟨[0x5E#8, id] ++ esc hardware lo, by rw [feedContext_append, hstart, feedContext_esc_low]⟩
  · exact ⟨[0x5E#8, id] ++ esc hardware lo ++ [0x5D#8], by
      rw [feedContext_append, feedContext_append, hstart, feedContext_esc_low]; rfl⟩
  · exact ⟨[0x5E#8, id] ++ esc hardware lo ++ esc hardware hi, by
      rw [feedContext_append, feedContext_append, hstart, feedContext_esc_low, feedContext_esc_high]⟩

theorem feedAll_isFeedOrReset (bs : List Byte) : ∀ x ∈ feedAll bs, IsFeedOrReset x := by
  intro x hx
  obtain ⟨b, -, rfl⟩ := List.mem_map.1 hx
  exact .inr ⟨b, rfl⟩

/-- Settles O13: frames broken off reach the seven shapes, and the canonical form is kept along the run. -/
theorem reachableContextsAreTheSevenShapes : Obligations.ReachableContextsAreTheSevenShapes := by
  intro c
  rw [← canonical_iff_shape]
  constructor
  · intro hc
    obtain ⟨bs, hbs⟩ := exists_feedContext_eq hc
    obtain ⟨rs, hrun⟩ := run_feedAll Context.clear bs [] []
    refine ⟨feedAll bs, feedAll_isFeedOrReset bs, rs, ?_⟩
    rw [List.append_nil, hbs] at hrun
    rw [feedAll, List.length_map]
    exact hrun
  · rintro ⟨ins, hins, rs, hrun⟩
    exact run_canonical ins.length rfl hins hrun

/-! ### Saving and restoring the context (R32, R141, R142) -/

theorem exec_dfGetState (s : State) :
    exec .dfGetState s = .next ⟨s.ctx, s.inputs, { rz := s.ctx.token } :: s.responses⟩ := rfl

theorem exec_dfSetState_of_some {z : Word} {c : Context} (h : contextOfToken z = some c) (s : State) :
    exec (.dfSetState z) s = .next ⟨c, s.inputs, {} :: s.responses⟩ := by
  simp only [exec, execDfSetState, h]
  rfl

theorem exists_contextOfToken_eq_some {z : Word} (h : z.toNat % 8 ≤ 5) : ∃ c, contextOfToken z = some c := by
  rw [← Option.ne_none_iff_exists', ne_eq, contextOfToken_none_iff, BitVec.extractLsb'_toNat, Nat.shiftRight_zero]
  omega

/-- The token of a loaded context is the token it was loaded from, the four ignored bits cleared (R78). -/
theorem token_of_contextOfToken {z : Word} {c : Context} (h : contextOfToken z = some c) :
    c.token = z &&& 0xFFFFFF0F#32 := by
  obtain ⟨st, hst, rfl⟩ := Option.map_eq_some_iff.1 h
  rw [Context.token, dfStateOfCode_some hst]
  apply BitVec.eq_of_getLsbD_eq
  intro i hi
  simp only [BitVec.getLsbD_append, BitVec.getLsbD_extractLsb', BitVec.getLsbD_and]
  interval_cases i <;> simp

/-- Settles O47. -/
theorem tokenSaveAndRestore : Obligations.TokenSaveAndRestore := by
  refine ⟨fun s => ⟨s.ctx.token, exec_dfGetState s, exec_dfSetState_of_some (contextOfToken_token s.ctx)⟩,
    fun z s hz => ?_⟩
  obtain ⟨c, hc⟩ := exists_contextOfToken_eq_some hz
  refine ⟨_, exec_dfSetState_of_some hc s, ?_⟩
  rw [exec_dfGetState, token_of_contextOfToken hc]

end Sys2Proof.StateFamily
end

section
/-! PROOFS. The memory family (20_memory.md R47, R49): a step runs the request it takes, and what an operation does
beside its one response is an effect on the context alone. -/

namespace Sys2Proof.MemoryFamily

open Sys2Proof.Machine

/-! ### A step runs the request it takes (R49, R208) -/

theorem step_of_decode_eq_instr {r : Request} {i : Instr} (h : decode r = .instr i) (c : Context)
    (rest : List Input) (rs : List Response) : step ⟨c, .request r :: rest, rs⟩ = exec i ⟨c, rest, rs⟩ := by
  simp only [step, h]
  rfl

/-- The 18 codes of R75 are the ones the decoder reads as operations. -/
theorem exists_decode_eq_instr {r : Request} (h : r.op ∈ definedOps) : ∃ i : Instr, decode r = .instr i := by
  obtain ⟨op, fa, fb, pk, x, y, z, mul, div, k, k2⟩ := r
  simp only [definedOps, List.mem_cons, List.not_mem_nil, or_false] at h
  obtain rfl | rfl | rfl | rfl | rfl | rfl | rfl | rfl | rfl | rfl | rfl | rfl | rfl | rfl | rfl | rfl | rfl | rfl := h
  all_goals exact ⟨_, rfl⟩

/-- Settles O5. -/
theorem stepRunsDecodedRequest : Obligations.StepRunsDecodedRequest :=
  ⟨fun _ _ c rest rs h => step_of_decode_eq_instr h c rest rs,
    fun _ h => exists_decode_eq_instr (List.contains_iff_mem.1 h)⟩

/-! ### Side effects (R47) -/

/-- The response that ends an operation is fixed by the operation's result, whatever the state. -/
theorem exists_finish_eq (x : Except Error Response) :
    ∃ rsp : Response, ∀ s : State, s.finish x = ⟨s.ctx, s.inputs, rsp :: s.responses⟩ := by
  cases x with
  | ok r => exact ⟨r, fun _ => rfl⟩
  | error e => exact ⟨Response.error e, fun _ => rfl⟩

/-- Only the four operations that R27 names read or write the context: any other has one result for all states. -/
theorem exec_eq_finish {i : Instr} (hfeed : ∀ k, i ≠ .dfFeed k) (hreset : i ≠ .dfReset) (hget : i ≠ .dfGetState)
    (hset : ∀ z, i ≠ .dfSetState z) :
    ∃ x : Except Error Response, ∀ s : State, exec i s = .next (s.finish x) := by
  cases i with
  | dfFeed k => exact absurd rfl (hfeed k)
  | dfReset => exact absurd rfl hreset
  | dfGetState => exact absurd rfl hget
  | dfSetState z => exact absurd rfl (hset z)
  | _ => exact ⟨_, fun _ => rfl⟩

/-- The effect of every operation beside its response is on the context alone. -/
theorem exec_effect (i : Instr) (s : State) : ∃ rsp : Response,
    exec i s = .next ⟨StateFamily.contextAfter i s.ctx, s.inputs, rsp :: s.responses⟩ := by
  obtain ⟨x, hexec⟩ := StateFamily.exec_writes_contextAfter i s
  obtain ⟨rsp, hfinish⟩ := exists_finish_eq x
  exact ⟨rsp, hexec.trans (congrArg _ (hfinish _))⟩

/-- `DF.RESET` and `DF.SETSTATE` do not read the context they overwrite; a refused token leaves it both times. -/
theorem contextAfter_idempotent {i : Instr} (hi : i = .dfReset ∨ ∃ z, i = .dfSetState z) (c : Context) :
    StateFamily.contextAfter i (StateFamily.contextAfter i c) = StateFamily.contextAfter i c := by
  obtain rfl | ⟨z, rfl⟩ := hi
  · rfl
  · cases h : contextOfToken z <;> simp [StateFamily.contextAfter, h]

/-- Two equal markers: the first begins a frame, the second is its id. -/
theorem dfFeed_not_idempotent : ∃ (k : Byte) (s t u : State),
    exec (.dfFeed k) s = .next t ∧ exec (.dfFeed k) t = .next u ∧ u.ctx ≠ t.ctx :=
  ⟨0x5E, State.reset, ⟨⟨.readId, 0, 0, 0, 0⟩, [], [{}]⟩, ⟨⟨.readDataLow, 0, 0x5E, 0, 0⟩, [], [{}, {}]⟩,
    rfl, rfl, by decide⟩

/-- Settles O14. -/
theorem sideEffectsAreConfined : Obligations.SideEffectsAreConfined := by
  refine ⟨fun i hfeed hreset hget hset => ?_, fun c => ?_, fun i s => ?_, fun i s t u hi ht hu => ?_,
    dfFeed_not_idempotent⟩
  · obtain ⟨x, hexec⟩ := exec_eq_finish hfeed hreset hget hset
    obtain ⟨rsp, hfinish⟩ := exists_finish_eq x
    exact ⟨rsp, fun s => (hexec s).trans (congrArg _ (hfinish s))⟩
  · exact ⟨{ rz := c.token }, fun ins rs => StateFamily.exec_dfGetState ⟨c, ins, rs⟩⟩
  · exact ⟨_, exec_effect i s⟩
  · rw [StateFamily.exec_ctx hu, StateFamily.exec_ctx ht, contextAfter_idempotent hi]

end Sys2Proof.MemoryFamily
end

section
/-! PROOFS. The encoding family (30_encoding.md R62, R65, R70 to R79, R82): the request word and the decoder, the form
of every response, the float results, and frames on the wire. -/

namespace Sys2Proof.EncodingFamily

open Sys2Proof.Machine

/-! ### The request word (R70; the places are log 4) -/

theorem extractLsb'_toWord_op (r : Request) : r.toWord.extractLsb' 0 8 = r.op :=
  BitVec.extractLsb'_append_eq_right

/-- Above `OP` the word holds the operand fields. -/
theorem extractLsb'_toWord_operands (r : Request) {start len : Nat} (h : 8 ≤ start) :
    r.toWord.extractLsb' start len =
      (r.k2 ++ r.k ++ r.div ++ r.mul ++ r.z ++ r.y ++ r.x ++ r.pk ++ r.fb ++ r.fa).extractLsb' (start - 8) len :=
  BitVec.extractLsb'_append_eq_of_le h

/-- The fields of a request do not overlap in its word: each is read back by peeling off those below it. -/
theorem ofWord_toWord (r : Request) : Request.ofWord r.toWord = r := by
  simp (disch := decide) only [Request.ofWord, extractLsb'_toWord_op, extractLsb'_toWord_operands,
    BitVec.extractLsb'_append_eq_of_le, BitVec.extractLsb'_append_eq_right, BitVec.extractLsb'_eq_self,
    Nat.reduceSub, -Nat.reduceAdd]

theorem decode_encode (i : Instr) : decode (encode i) = .instr i := by
  cases i <;> rfl

/-- Settles O1: the word gives its request back, and the request its operation. -/
theorem requestWordRoundTrip : Obligations.RequestWordRoundTrip := by
  intro i
  rw [decodeWord, encodeWord, ofWord_toWord, decode_encode]

/-! ### The decoder against the operation-code map (R75, R76) -/

/-- A code names one row. -/
theorem opTable_row_unique {a b : OpRow} (ha : a ∈ opTable) (hb : b ∈ opTable) (h : a.op = b.op) : a = b :=
  List.inj_on_of_nodup_map (f := OpRow.op) (by decide) ha hb h

theorem opTable_op : opTable.map OpRow.op = definedOps := by rfl

/-- A request of a defined code decodes to the operation of its row, whose request is this one but for the fields
that the row does not read. -/
theorem encode_decode {r : Request} (h : r.op ∈ definedOps) :
    ∃ row ∈ opTable, row.op = r.op ∧ ∃ i, decode r = .instr i ∧ encode i = keepRequest row.reads r := by
  obtain ⟨op, fa, fb, pk, x, y, z, mul, div, k, k2⟩ := r
  rw [← opTable_op] at h
  obtain ⟨row, hrow, hop⟩ := List.mem_map.1 h
  refine ⟨row, hrow, hop, ?_⟩
  cases hop
  simp only [opTable, vqRows, dfRows, ckSpRows, List.cons_append, List.nil_append, List.mem_cons, List.not_mem_nil,
    or_false] at hrow
  obtain rfl | rfl | rfl | rfl | rfl | rfl | rfl | rfl | rfl | rfl | rfl | rfl | rfl | rfl | rfl | rfl | rfl |
    rfl := hrow
  all_goals exact ⟨_, rfl, rfl⟩

theorem mem_definedOps_of_toNat {op : Byte} {n : Nat} (h : op.toNat = n) (hn : BitVec.ofNat 8 n ∈ definedOps) :
    op ∈ definedOps := by
  rwa [← h, BitVec.ofNat_toNat, BitVec.setWidth_eq] at hn

/-- Every code outside R75 is kept as a reserved code (R76). -/
theorem decode_of_not_mem {r : Request} (h : r.op ∉ definedOps) : decode r = .reserved r.op := by
  unfold decode
  split
  case h_19 => rfl
  all_goals exact absurd (mem_definedOps_of_toNat ‹_› (by decide)) h

/-- Settles O2. -/
theorem decodedRequestReencodes : Obligations.DecodedRequestReencodes := by
  intro r i hi
  have hop : r.op ∈ definedOps := by
    by_contra h
    cases hi.symm.trans (decode_of_not_mem h)
  obtain ⟨row, hrow, hcode, j, hj, hencode⟩ := encode_decode hop
  cases hi.symm.trans hj
  exact ⟨row, hrow, hcode, hencode⟩

/-- The fields a row does not read have no influence on the operation (R72). -/
theorem decode_keepRequest {r : Request} {row : OpRow} (hrow : row ∈ opTable) (hop : row.op = r.op) :
    decode (keepRequest row.reads r) = decode r := by
  have hdef : r.op ∈ definedOps := by
    rw [← hop, ← opTable_op]
    exact List.mem_map_of_mem hrow
  obtain ⟨row', hrow', hop', i, hi, hencode⟩ := encode_decode hdef
  obtain rfl := opTable_row_unique hrow hrow' (hop.trans hop'.symm)
  rw [← hencode, decode_encode, hi]

theorem step_congr_decode {r r' : Request} (h : decode r = decode r') (c : Context)
    (rest : List Input) (rs : List Response) :
    step ⟨c, .request r :: rest, rs⟩ = step ⟨c, .request r' :: rest, rs⟩ := by
  simp only [step, h]
  rfl

/-- The gaps between the defined codes. -/
theorem definedOps_complement (op : Byte) : definedOps.contains op = false ↔
    (0x07 ≤ op.toNat ∧ op.toNat ≤ 0x0F) ∨ (0x15 ≤ op.toNat ∧ op.toNat ≤ 0x1F) ∨
    (0x22 ≤ op.toNat ∧ op.toNat ≤ 0x2F) ∨ 0x34 ≤ op.toNat := by
  have hmem : definedOps.contains op = true ↔ op.toNat ∈ definedOps.map BitVec.toNat :=
    List.contains_iff_mem.trans (List.mem_map_of_injective fun _ _ => BitVec.eq_of_toNat_eq).symm
  have hlt : op.toNat < 2 ^ 8 := op.isLt
  rw [← Bool.not_eq_true, hmem]
  simp only [definedOps, List.map_cons, List.map_nil, List.mem_cons, List.not_mem_nil, or_false, BitVec.reduceToNat]
  omega

/-- Settles O4. -/
theorem reservedCodesAnswerIllegalOp : Obligations.ReservedCodesAnswerIllegalOp := by
  refine ⟨definedOps_complement, by decide +kernel, fun r c rest rs h => ?_⟩
  have hdec : decode r = .reserved r.op := decode_of_not_mem fun hmem =>
    Bool.false_ne_true (h.symm.trans (List.contains_iff_mem.2 hmem))
  simp only [step, hdec]
  rfl

/-- Settles O6: each word is closed, so the decoder is evaluated on it. -/
theorem writtenOutWordsDecode : Obligations.WrittenOutWordsDecode :=
  ⟨rfl, rfl, rfl, rfl, rfl, rfl⟩

/-! ### The integer formats (R79) -/

/-- `K2[7:3]` is ignored: the format is a function of `K2 mod 8`, its low two bits the width, the next the sign. -/
theorem intFormat_eq (k2 : Byte) : intFormat k2 =
    if k2.toNat % 8 % 4 = 3 then none else some ⟨8 <<< (k2.toNat % 8 % 4), decide (4 ≤ k2.toNat % 8)⟩ := by
  have hw : (k2.extractLsb' 0 2).toNat = k2.toNat % 8 % 4 := by
    rw [BitVec.extractLsb'_toNat]
    omega
  have hs : k2.getLsbD 2 = decide (4 ≤ k2.toNat % 8) := by
    rw [BitVec.getLsbD, Nat.testBit_eq_decide_div_mod_eq]
    exact decide_eq_decide.2 (by omega)
  simp only [intFormat, hw, hs]

/-- Settles O23: the eight values of `K2[2:0]`. -/
theorem integerFormatsDecoded : Obligations.IntegerFormatsDecoded := by
  intro k2
  rw [intFormat_eq]
  have hlt : k2.toNat % 8 < 8 := Nat.mod_lt _ (by decide)
  generalize k2.toNat % 8 = n at hlt ⊢
  interval_cases n <;> rfl

/-! ### The response of an operation -/

/-- The response that ends an operation (R205). -/
def answer : Except Error Response → Response
  | .ok r => r
  | .error e => Response.error e

@[simp] theorem answer_ok (r : Response) : answer (.ok r) = r := rfl
@[simp] theorem answer_error (e : Error) : answer (.error e) = Response.error e := rfl

theorem finish_eq (x : Except Error Response) (s : State) : s.finish x = s.respond (answer x) := by
  cases x <;> rfl

/-- The result of an operation, from its operands and the context before it. -/
def result (i : Instr) (c : Context) : Except Error Response :=
  match i with
  | .vqSplit fa mul => vqSplit hardware fa mul
  | .vqJoin x y mul => vqJoin hardware x y mul
  | .vqDms x y => vqDms hardware x y
  | .vqQuant fa mul div k2 => vqQuant hardware fa mul div k2
  | .vqDequant z mul div k2 => vqDequant hardware z mul div k2
  | .vqCellD k fa => vqCellD hardware k fa
  | .vqCellSp k k2 fa fb => vqCellSp hardware k k2 fa fb
  | .dfEncode k x => dfEncode hardware k x
  | .dfFeed k => eventResult (dFeed hardware c k).2
  | .dfReset => .ok {}
  | .dfGetState => .ok { rz := c.token }
  | .dfSetState z => if (contextOfToken z).isSome then .ok {} else .error .argumentRange
  | .ckSum pk k => ckSum hardware pk k
  | .ckVerify pk => ckVerify hardware pk
  | .spEncode k y z => spEncode hardware k y z
  | .spEncode10 y z => spEncode10 hardware y z
  | .spEmpty => spEmpty hardware
  | .spDecode pk => spDecode hardware pk

/-- Every operation writes the context it leaves and answers with its result. -/
theorem exec_eq (i : Instr) (s : State) :
    exec i s = .next ⟨StateFamily.contextAfter i s.ctx, s.inputs, answer (result i s.ctx) :: s.responses⟩ := by
  cases i with
  | dfSetState z =>
    cases h : contextOfToken z with
    | none => simp [exec, execDfSetState, StateFamily.contextAfter, result, h, finish_eq, State.respond]
    | some c =>
      simp [exec, execDfSetState, StateFamily.contextAfter, result, h, finish_eq, State.respond, State.setContext]
  | _ => exact congrArg Host.Outcome.next (finish_eq _ _)

/-- The one new response of an operation is the answer with its result. -/
theorem exec_response {i : Instr} {s t : State} {rsp : Response} (h : exec i s = .next t)
    (hrsp : t.responses = rsp :: s.responses) : rsp = answer (result i s.ctx) := by
  cases h.symm.trans (exec_eq i s)
  exact (List.cons.inj hrsp).1.symm

/-! ### What an operation returns when it raises no error -/

section
variable {fa fb z : Word} {x y mul div : Half} {k k2 : Byte} {pk : ByteVec} {r : Response}

theorem vqSplit_ok (h : vqSplit hardware fa mul = .ok r) : ∃ b a, r = { rx := b, ry := a } := by
  simp only [vqSplit] at h
  split_ifs at h
  cases h
  exact ⟨_, _, rfl⟩

theorem vqJoin_ok (h : vqJoin hardware x y mul = .ok r) :
    ∃ f, r = { rf := f } ∧ mul ≠ 0 ∧ f = toFloat hardware (joinExact x y mul) := by
  simp only [vqJoin] at h
  split_ifs at h with hmul
  cases h
  exact ⟨_, rfl, hmul, rfl⟩

theorem vqDms_ok (h : vqDms hardware x y = .ok r) :
    ∃ d m f, r = { rx := d, ry := m, rf := f } ∧ f = toFloat hardware (dmsSeconds hardware y) := by
  cases h
  exact ⟨_, _, _, rfl, rfl⟩

theorem vqQuant_ok (h : vqQuant hardware fa mul div k2 = .ok r) : ∃ q, r = { rz := q } := by
  simp only [vqQuant] at h
  split_ifs at h
  split at h
  · cases h
  · split_ifs at h
    cases h
    exact ⟨_, rfl⟩

theorem vqDequant_ok (h : vqDequant hardware z mul div k2 = .ok r) :
    ∃ f, r = { rf := f } ∧ mul ≠ 0 ∧ ∃ fmt, intFormat k2 = some fmt ∧
      f = toFloat hardware (dequantExact fmt z mul div) := by
  simp only [vqDequant] at h
  split_ifs at h with hzero
  split at h
  · cases h
  next fmt hfmt =>
    cases h
    exact ⟨_, rfl, fun hmul => hzero (.inl hmul), fmt, hfmt, rfl⟩

theorem vqCellD_ok (h : vqCellD hardware k fa = .ok r) : ∃ b1 b2 w, r = { rk := b1, rk2 := b2, rz := w } := by
  simp only [vqCellD] at h
  split at h
  · cases h
  · cases h
    exact ⟨_, _, _, rfl⟩

theorem vqCellSp_ok (h : vqCellSp hardware k k2 fa fb = .ok r) : ∃ w, r = { rz := w } := by
  simp only [vqCellSp] at h
  split at h
  · cases h
  · split at h
    · cases h
    · cases h
      exact ⟨_, rfl⟩

theorem dfEncode_ok (h : dfEncode hardware k x = .ok r) : ∃ p n, r = { rpk := p, rlen := n } := by
  cases h
  exact ⟨_, _, rfl⟩

theorem eventResult_ok {e : Event} (h : eventResult e = .ok r) :
    r = {} ∨ ∃ id v, r = { ev := 1, rk := id, rx := v } := by
  cases e with
  | none => cases h; exact .inl rfl
  | frame id v => cases h; exact .inr ⟨id, v, rfl⟩
  | framingError => cases h

theorem ckSum_ok (h : ckSum hardware pk k = .ok r) : ∃ crc chk, r = { rk := crc, rk2 := chk } := by
  simp only [ckSum] at h
  split_ifs at h
  cases h
  exact ⟨_, _, rfl⟩

theorem ckVerify_ok (h : ckVerify hardware pk = .ok r) : ∃ fold ok, r = { rk := fold, rk2 := ok } := by
  cases h
  exact ⟨_, _, rfl⟩

theorem packet_ok {p : List Byte} (h : Except.ok (ε := Error) (packetResult hardware p) = .ok r) :
    ∃ v, r = { rpk := v, rlen := 8 } := by
  cases h
  exact ⟨_, rfl⟩

theorem spDecode_ok (h : spDecode hardware pk = .ok r) : ∃ type id v, r = { rk := type, ry := id, rz := v } := by
  simp only [spDecode] at h
  split_ifs at h
  cases h
  exact ⟨_, _, _, rfl⟩

end

/-- A result has status `OK` and is 0 outside the fields its row of R75 writes (R72). -/
theorem exists_row_of_result_ok {i : Instr} {c : Context} {r : Response} (h : result i c = .ok r) :
    ∃ row ∈ opTable, row.op = (encode i).op ∧ r.st = 0 ∧ keepResponse row.writes r = r := by
  cases i with
  | vqSplit fa mul =>
    obtain ⟨b, a, rfl⟩ := vqSplit_ok h
    exact ⟨opTable[0], by decide, rfl, rfl, rfl⟩
  | vqJoin x y mul =>
    obtain ⟨f, rfl, -⟩ := vqJoin_ok h
    exact ⟨opTable[1], by decide, rfl, rfl, rfl⟩
  | vqDms x y =>
    obtain ⟨d, m, f, rfl, -⟩ := vqDms_ok h
    exact ⟨opTable[2], by decide, rfl, rfl, rfl⟩
  | vqQuant fa mul div k2 =>
    obtain ⟨q, rfl⟩ := vqQuant_ok h
    exact ⟨opTable[3], by decide, rfl, rfl, rfl⟩
  | vqDequant z mul div k2 =>
    obtain ⟨f, rfl, -⟩ := vqDequant_ok h
    exact ⟨opTable[4], by decide, rfl, rfl, rfl⟩
  | vqCellD k fa =>
    obtain ⟨b1, b2, w, rfl⟩ := vqCellD_ok h
    exact ⟨opTable[5], by decide, rfl, rfl, rfl⟩
  | vqCellSp k k2 fa fb =>
    obtain ⟨w, rfl⟩ := vqCellSp_ok h
    exact ⟨opTable[6], by decide, rfl, rfl, rfl⟩
  | dfEncode k x =>
    obtain ⟨p, n, rfl⟩ := dfEncode_ok h
    exact ⟨opTable[7], by decide, rfl, rfl, rfl⟩
  | dfFeed k =>
    obtain rfl | ⟨id, v, rfl⟩ := eventResult_ok h <;> exact ⟨opTable[8], by decide, rfl, rfl, rfl⟩
  | dfReset =>
    cases h
    exact ⟨opTable[9], by decide, rfl, rfl, rfl⟩
  | dfGetState =>
    cases h
    exact ⟨opTable[10], by decide, rfl, rfl, rfl⟩
  | dfSetState z =>
    simp only [result] at h
    split_ifs at h
    cases h
    exact ⟨opTable[11], by decide, rfl, rfl, rfl⟩
  | ckSum pk k =>
    obtain ⟨crc, chk, rfl⟩ := ckSum_ok h
    exact ⟨opTable[12], by decide, rfl, rfl, rfl⟩
  | ckVerify pk =>
    obtain ⟨fold, ok, rfl⟩ := ckVerify_ok h
    exact ⟨opTable[13], by decide, rfl, rfl, rfl⟩
  | spEncode k y z =>
    obtain ⟨v, rfl⟩ := packet_ok h
    exact ⟨opTable[14], by decide, rfl, rfl, rfl⟩
  | spEncode10 y z =>
    obtain ⟨v, rfl⟩ := packet_ok h
    exact ⟨opTable[15], by decide, rfl, rfl, rfl⟩
  | spEmpty =>
    obtain ⟨v, rfl⟩ := packet_ok h
    exact ⟨opTable[16], by decide, rfl, rfl, rfl⟩
  | spDecode pk =>
    obtain ⟨type, id, v, rfl⟩ := spDecode_ok h
    exact ⟨opTable[17], by decide, rfl, rfl, rfl⟩

/-- `exists_row_of_result_ok` for any row that names the operation. -/
theorem result_ok_writes {i : Instr} {c : Context} {r : Response} (h : result i c = .ok r) {row : OpRow}
    (hrow : row ∈ opTable) (hop : row.op = (encode i).op) : r.st = 0 ∧ keepResponse row.writes r = r := by
  obtain ⟨row', hrow', hop', hkeep⟩ := exists_row_of_result_ok h
  rwa [opTable_row_unique hrow hrow' (hop.trans hop'.symm)]

/-! ### The form of a response (R71, R72, R77, R205, R207) -/

theorem wellFormed_iff (r : Response) : r.wellFormed = true ↔
    r.st.toNat ≤ 4 ∧ (r.st = 0 ∨ r = { st := r.st }) ∧ (r.ev = 0 ∨ r = { ev := 1, rk := r.rk, rx := r.rx }) ∧
      r.rlen.toNat ≤ 8 ∧ r.rpk >>> (8 * r.rlen.toNat) = 0 := by
  simp only [Response.wellFormed, Bool.and_eq_true, Bool.or_eq_true, decide_eq_true_eq, beq_iff_eq, and_assoc]

theorem error_wellFormed (e : Error) : (Response.error e).wellFormed = true := by cases e <;> rfl

theorem keepResponse_error (fs : List RspField) (e : Error) :
    keepResponse fs (Response.error e) = Response.error e := by
  simp [keepResponse, Response.error]

/-- A sequence fills no bit from its own length up. -/
theorem getLsbD_vecOfBytes_of_le {bs : List Byte} {i : Nat} (h : 8 * bs.length ≤ i) :
    (vecOfBytes bs).getLsbD i = false := by
  induction bs generalizing i with
  | nil => exact BitVec.getLsbD_zero
  | cons b bs ih =>
    rw [List.length_cons] at h
    have htail : (vecOfBytes bs).getLsbD (i - 8) = false := ih (by omega)
    have hhead : b.getLsbD i = false := BitVec.getLsbD_of_ge b i (by omega)
    simp [vecOfBytes, htail, hhead]

/-- The bytes from the length of a sequence up are 0 (R72). -/
theorem vecOfBytes_ushiftRight_length (bs : List Byte) : vecOfBytes bs >>> (8 * bs.length) = 0 := by
  apply BitVec.eq_of_getLsbD_eq
  intro i _
  rw [BitVec.getLsbD_ushiftRight, getLsbD_vecOfBytes_of_le (by omega)]
  exact BitVec.getLsbD_zero.symm

theorem frame_length (id : Byte) (v : Half) : (frame hardware id v).length =
    3 + (esc hardware (v.extractLsb' 0 8)).length + (esc hardware (v.extractLsb' 8 8)).length := by
  simp only [frame, List.length_append, List.length_cons, List.length_nil]
  omega

theorem esc_length_le (b : Byte) : (esc hardware b).length ≤ 2 := by
  rw [esc_length]
  split <;> decide

theorem frame_length_le (id : Byte) (v : Half) : (frame hardware id v).length ≤ 7 := by
  have hlo := esc_length_le (v.extractLsb' 0 8)
  have hhi := esc_length_le (v.extractLsb' 8 8)
  rw [frame_length]
  omega

/-- The length of a frame fits into the four bits of `RLEN`. -/
theorem toNat_frame_length (id : Byte) (v : Half) :
    (BitVec.ofNat 4 (frame hardware id v).length).toNat = (frame hardware id v).length := by
  have hle := frame_length_le id v
  rw [BitVec.toNat_ofNat, Nat.mod_eq_of_lt (by omega)]

/-- Only `DF.FEED` writes `EV` (R75). -/
theorem opTable_writes_ev : ∀ row ∈ opTable, row.op ≠ 0x11#8 → .ev ∉ row.writes := by decide

/-- Only `DF.ENCODE` and the three packet builders write bytes and their number (R75). -/
theorem opTable_writes_bytes : ∀ row ∈ opTable, row.op ∉ [0x10#8, 0x30#8, 0x31#8, 0x32#8] →
    .rpk ∉ row.writes ∧ .rlen ∉ row.writes := by decide

theorem result_ok_ev_eq_zero {i : Instr} {c : Context} {r : Response} (h : result i c = .ok r)
    (hop : (encode i).op ≠ 0x11#8) : r.ev = 0 := by
  obtain ⟨row, hrow, hcode, -, hkeep⟩ := exists_row_of_result_ok h
  rw [← hkeep]
  simp [keepResponse, opTable_writes_ev row hrow (hcode ▸ hop)]

theorem result_ok_bytes_eq_zero {i : Instr} {c : Context} {r : Response} (h : result i c = .ok r)
    (hop : (encode i).op ∉ [0x10#8, 0x30#8, 0x31#8, 0x32#8]) : r.rpk = 0 ∧ r.rlen = 0 := by
  obtain ⟨row, hrow, hcode, -, hkeep⟩ := exists_row_of_result_ok h
  obtain ⟨hrpk, hrlen⟩ := opTable_writes_bytes row hrow (hcode ▸ hop)
  rw [← hkeep]
  simp [keepResponse, hrpk, hrlen]

/-- `EV` is 1 for a frame event and then only id and value stand beside it (R207). -/
theorem result_ok_event {i : Instr} {c : Context} {r : Response} (h : result i c = .ok r) :
    r.ev = 0 ∨ r = { ev := 1, rk := r.rk, rx := r.rx } := by
  cases i with
  | dfFeed k =>
    obtain rfl | ⟨id, v, rfl⟩ := eventResult_ok h
    · exact .inl rfl
    · exact .inr rfl
  | _ => exact .inl (result_ok_ev_eq_zero h (by simp [encode, Request.blank]))

/-- `RLEN` is at most 8 and `RPK` is 0 from there up (R71, R72). -/
def BytesFit (r : Response) : Prop := r.rlen.toNat ≤ 8 ∧ r.rpk >>> (8 * r.rlen.toNat) = 0

theorem dfEncode_bytesFit {k : Byte} {x : Half} {r : Response} (h : dfEncode hardware k x = .ok r) : BytesFit r := by
  cases h
  rw [BytesFit, toNat_frame_length]
  exact ⟨(frame_length_le k x).trans (by decide), vecOfBytes_ushiftRight_length _⟩

theorem packet_bytesFit {p : List Byte} {r : Response}
    (h : Except.ok (ε := Error) (packetResult hardware p) = .ok r) : BytesFit r := by
  obtain ⟨v, rfl⟩ := packet_ok h
  exact ⟨le_rfl, BitVec.ushiftRight_eq_zero le_rfl⟩

theorem result_ok_bytesFit {i : Instr} {c : Context} {r : Response} (h : result i c = .ok r) : BytesFit r := by
  cases i with
  | dfEncode k x => exact dfEncode_bytesFit h
  | spEncode k y z => exact packet_bytesFit h
  | spEncode10 y z => exact packet_bytesFit h
  | spEmpty => exact packet_bytesFit h
  | _ =>
    obtain ⟨hrpk, hrlen⟩ := result_ok_bytes_eq_zero h (by simp [encode, Request.blank])
    simp [BytesFit, hrpk, hrlen]

/-- Every operation answers in form, whatever the state. -/
theorem answer_wellFormed (i : Instr) (c : Context) : (answer (result i c)).wellFormed = true := by
  cases h : result i c with
  | error e => exact error_wellFormed e
  | ok r =>
    obtain ⟨row, -, -, hst, -⟩ := exists_row_of_result_ok h
    have hbytes := result_ok_bytesFit h
    exact (wellFormed_iff r).2 ⟨by simp [hst], .inl hst, result_ok_event h, hbytes⟩

/-- No answer holds anything outside the fields its row writes (R72). -/
theorem answer_writes (i : Instr) (c : Context) {row : OpRow} (hrow : row ∈ opTable) (hop : row.op = (encode i).op) :
    keepResponse row.writes (answer (result i c)) = answer (result i c) := by
  cases h : result i c with
  | error e => exact keepResponse_error _ e
  | ok r => exact (result_ok_writes h hrow hop).2

/-- Settles O3: a request and what it keeps decode alike; a response is written by its row and has its form. -/
theorem unusedPortFieldsIgnoredOrZero : Obligations.UnusedPortFieldsIgnoredOrZero := by
  refine ⟨fun r row rest c rs hrow hop => step_congr_decode (decode_keepRequest hrow hop) c rest rs,
    fun i s row hrow hop => ?_⟩
  obtain ⟨-, herror, -, -, hbytes⟩ := (wellFormed_iff _).1 (answer_wellFormed i s.ctx)
  exact ⟨_, _, exec_eq i s, rfl, answer_writes i s.ctx hrow hop, herror.resolve_left, hbytes⟩

/-- Settles O10, by the four things a step can do. -/
theorem responsesStayWellFormed : Obligations.ResponsesStayWellFormed := by
  intro s t hs hstep
  obtain ⟨-, h⟩ | ⟨rest, -, h⟩ | ⟨r, rest, i, -, -, h⟩ | ⟨r, rest, op, -, -, h⟩ := step_cases s
  · cases h.symm.trans hstep
    exact hs
  · cases h.symm.trans hstep
    exact hs
  · cases (h.trans (exec_eq i _)).symm.trans hstep
    exact Bool.and_eq_true_iff.2 ⟨answer_wellFormed i _, hs⟩
  · cases h.symm.trans hstep
    exact Bool.and_eq_true_iff.2 ⟨error_wellFormed .illegalOp, hs⟩

/-! ### Float results (R82) -/

/-- In the normal range `toFloat` gives a normal pattern; the carry of the significand stays below infinity. -/
theorem toFloat_regular_of_normal {q : Frac} (hd : q.den ≠ 0) (hlo : 2 ^ (-126 : Int) ≤ |q.toRat|)
    (hhi : |q.toRat| < 2 ^ (127 : Int)) : floatResultRegular (toFloat hardware q) = true := by
  have hpos : 0 < |q.toRat| := lt_of_lt_of_le (by positivity) hlo
  have hq : q.num ≠ 0 := by rwa [Ne, ← Scope.toRat_eq_zero_iff hd, ← abs_eq_zero, ← Ne, ← abs_pos, abs_abs]
  have hge : -126 ≤ Int.log 2 |q.toRat| := (Int.zpow_le_iff_le_log one_lt_two hpos).1 hlo
  have hle : Int.log 2 |q.toRat| < 127 := (Int.lt_zpow_iff_log_lt one_lt_two hpos).1 hhi
  obtain ⟨hmlo, hmhi⟩ := Scope.significandAt_mem hd (by simpa using Int.zpow_log_le_self one_lt_two hpos)
    (by simpa using Int.lt_zpow_succ_log_self one_lt_two |q.toRat|)
  rw [Scope.toFloat_of_normal hd hq rfl hge (by omega), floatResultRegular, Scope.floatExponent_pack _ (by omega)]
  simp only [Bool.or_eq_true, Bool.and_eq_true, decide_eq_true_eq]
  right
  omega

/-- A fraction of bounded parts is 0 or lies in the normal range. -/
theorem toFloat_regular {q : Frac} (hd : q.den ≠ 0) (hden : q.den ≤ 2 ^ 126) (hnum : q.num.natAbs < 2 ^ 127) :
    floatResultRegular (toFloat hardware q) = true := by
  by_cases hq : q.num = 0
  · rw [Scope.toFloat_zero hq]
    rfl
  · have hnum_one : (1 : Rat) ≤ q.num.natAbs := by exact_mod_cast Int.natAbs_pos.2 hq
    have hden_one : (1 : Rat) ≤ q.den := by exact_mod_cast Nat.pos_of_ne_zero hd
    have hden' : (q.den : Rat) ≤ 2 ^ 126 := by exact_mod_cast hden
    have hnum' : (q.num.natAbs : Rat) < 2 ^ 127 := by exact_mod_cast hnum
    apply toFloat_regular_of_normal hd <;> rw [Scope.abs_toRat]
    · rw [le_div_iff₀ (by linarith), zpow_neg, inv_mul_le_iff₀ (by positivity)]
      exact hden'.trans (le_mul_of_one_le_right (by positivity) hnum_one)
    · exact (div_le_self (by positivity) hden_one).trans_lt hnum'

theorem joinExact_den (x y mul : Half) : (joinExact x y mul).den = mul.toNat := by
  unfold joinExact
  split <;> simp [Frac.add, Frac.sub, Frac.ofInt, Frac.divNat]

theorem joinExact_num (x y mul : Half) : (joinExact x y mul).num =
    x.toInt * mul.toNat + (if 0 ≤ x.toInt then (y.toNat : Int) else -y.toNat) := by
  unfold joinExact
  split <;> simp [Frac.add, Frac.sub, Frac.ofInt, Frac.divNat, sub_eq_add_neg]

theorem natAbs_toInt_le {w : Nat} (b : BitVec w) : b.toInt.natAbs ≤ 2 ^ w := by
  have hlt := b.isLt
  rw [BitVec.toInt_eq_toNat_cond]
  split <;> omega

theorem join_regular {x y mul : Half} (hmul : mul ≠ 0) :
    floatResultRegular (toFloat hardware (joinExact x y mul)) = true := by
  have hm := mul.isLt
  have hy := y.isLt
  refine toFloat_regular ?_ ?_ ?_
  · rw [joinExact_den]
    bv_omega
  · rw [joinExact_den]
    omega
  · have hprod : (x.toInt * mul.toNat).natAbs ≤ 2 ^ 16 * 2 ^ 16 := by
      rw [Int.natAbs_mul, Int.natAbs_natCast]
      exact Nat.mul_le_mul (natAbs_toInt_le x) hm.le
    rw [joinExact_num]
    split <;> omega

theorem dms_regular (y : Half) : floatResultRegular (toFloat hardware (dmsSeconds hardware y)) = true := by
  have hy := y.isLt
  have hden : (dmsSeconds hardware y).den = 1000 := by
    simp [dmsSeconds, Frac.ofInt, Frac.mulNat, Frac.divNat]
  have hnum : (dmsSeconds hardware y).num = y.toNat * 6 := by
    simp [dmsSeconds, Frac.ofInt, Frac.mulNat, Frac.divNat]
  exact toFloat_regular (by omega) (by omega) (by omega)

theorem intFormat_width_le {k2 : Byte} {f : IntFormat} (h : intFormat k2 = some f) : f.width ≤ 32 := by
  have hlt : k2.toNat % 8 % 4 < 4 := Nat.mod_lt _ (by decide)
  rw [intFormat_eq] at h
  split_ifs at h
  cases h
  generalize k2.toNat % 8 % 4 = n at *
  interval_cases n <;> simp at *

theorem natAbs_read_le (f : IntFormat) (z : Word) : (f.read z).natAbs ≤ 2 ^ f.width := by
  simp only [IntFormat.read]
  split
  · exact natAbs_toInt_le _
  · exact (BitVec.isLt _).le

theorem dequant_regular {z : Word} {mul div : Half} {k2 : Byte} {f : IntFormat} (hmul : mul ≠ 0)
    (hf : intFormat k2 = some f) : floatResultRegular (toFloat hardware (dequantExact f z mul div)) = true := by
  have hm := mul.isLt
  have hden : (dequantExact f z mul div).den = mul.toNat := Nat.one_mul _
  refine toFloat_regular ?_ (by omega) ?_
  · rw [hden]
    bv_omega
  · calc (f.read z * div.toNat).natAbs
      _ = (f.read z).natAbs * div.toNat := by rw [Int.natAbs_mul, Int.natAbs_natCast]
      _ ≤ 2 ^ 32 * 2 ^ 16 := Nat.mul_le_mul ((natAbs_read_le f z).trans
          (Nat.pow_le_pow_right two_pos (intFormat_width_le hf))) div.isLt.le
      _ < 2 ^ 127 := by norm_num

/-- Only `VQ.JOIN`, `VQ.DMS` and `VQ.DEQUANT` write `RF` (R75). -/
theorem opTable_writes_rf : ∀ row ∈ opTable, row.op ∉ [0x01#8, 0x02#8, 0x04#8] → .rf ∉ row.writes := by decide

theorem result_ok_rf_eq_zero {i : Instr} {c : Context} {r : Response} (h : result i c = .ok r)
    (hop : (encode i).op ∉ [0x01#8, 0x02#8, 0x04#8]) : r.rf = 0 := by
  obtain ⟨row, hrow, hcode, -, hkeep⟩ := exists_row_of_result_ok h
  rw [← hkeep]
  simp [keepResponse, opTable_writes_rf row hrow (hcode ▸ hop)]

theorem result_ok_rf_regular {i : Instr} {c : Context} {r : Response} (h : result i c = .ok r) :
    floatResultRegular r.rf = true := by
  cases i with
  | vqJoin x y mul =>
    obtain ⟨f, rfl, hmul, rfl⟩ := vqJoin_ok h
    exact join_regular hmul
  | vqDms x y =>
    obtain ⟨d, m, f, rfl, rfl⟩ := vqDms_ok h
    exact dms_regular y
  | vqDequant z mul div k2 =>
    obtain ⟨f, rfl, hmul, fmt, hfmt, rfl⟩ := vqDequant_ok h
    exact dequant_regular hmul hfmt
  | _ =>
    rw [result_ok_rf_eq_zero h (by simp [encode, Request.blank])]
    rfl

/-- Settles O18: the exact value behind each of the three float results has bounded parts. -/
theorem floatResultsAreRegular : Obligations.FloatResultsAreRegular := by
  intro i s t rsp hexec hrsp
  rw [exec_response hexec hrsp]
  cases h : result i s.ctx with
  | error e => rfl
  | ok r => exact result_ok_rf_regular h

/-! ### Frames (R130 to R132) -/

theorem exec_dfEncode (k : Byte) (x : Half) (s : State) :
    exec (.dfEncode k x) s = .next ⟨s.ctx, s.inputs,
      { rpk := vecOfBytes (frame hardware k x), rlen := BitVec.ofNat 4 (frame hardware k x).length } ::
        s.responses⟩ := rfl

theorem esc_length_eq (b : Byte) : (esc hardware b).length = 1 + (b == 0x5E#8 || b == 0x5D#8).toNat := by
  rw [esc_length]
  split
  next h => rcases h with rfl | rfl <;> rfl
  next h =>
    obtain ⟨hmark, hesc⟩ := not_or.1 h
    simp [hmark, hesc]

/-- 5 bytes, and one more for each escape (R62). -/
theorem frame_length_eq (id : Byte) (v : Half) : (frame hardware id v).length =
    5 + (v.extractLsb' 0 8 == 0x5E#8 || v.extractLsb' 0 8 == 0x5D#8).toNat +
      (v.extractLsb' 8 8 == 0x5E#8 || v.extractLsb' 8 8 == 0x5D#8).toNat := by
  rw [frame_length, esc_length_eq, esc_length_eq]
  omega

/-- Settles O36. -/
theorem dfEncodeEmitsEscapedFrame : Obligations.DfEncodeEmitsEscapedFrame := by
  intro k x s special e b0 b1
  exact ⟨_, _, exec_dfEncode k x s, (toNat_frame_length k x).trans (frame_length_eq k x),
    fun i hi => byteAt_vecOfBytes _ i hi⟩

/-! ### The responses to a run of fed bytes -/

/-- The responses to a sequence of bytes, in the order of the bytes. -/
def feedAnswers : Context → List Byte → List Response
  | _, [] => []
  | c, b :: bs => answer (eventResult (dFeed hardware c b).2) :: feedAnswers (dFeed hardware c b).1 bs

@[simp] theorem feedAnswers_nil (c : Context) : feedAnswers c [] = [] := rfl

@[simp] theorem feedAnswers_cons (c : Context) (b : Byte) (bs : List Byte) :
    feedAnswers c (b :: bs) =
      answer (eventResult (dFeed hardware c b).2) :: feedAnswers (dFeed hardware c b).1 bs := rfl

@[simp] theorem feedAnswers_append (c : Context) (as bs : List Byte) :
    feedAnswers c (as ++ bs) = feedAnswers c as ++ feedAnswers (StateFamily.feedContext c as) bs := by
  induction as generalizing c with
  | nil => rfl
  | cons a as ih => simp [ih]

/-- A run of fed bytes with its responses, newest first (R84, R134). -/
theorem run_feedAll_eq (c : Context) (bs : List Byte) (rest : List Input) (rs : List Response) :
    Host.Core.run Sys2Proof.core bs.length (⟨c, feedAll bs ++ rest, rs⟩ : State) =
      .next ⟨StateFamily.feedContext c bs, rest, (feedAnswers c bs).reverse ++ rs⟩ := by
  induction bs generalizing c rs with
  | nil => rfl
  | cons b bs ih =>
    have hstep : step ⟨c, feedAll (b :: bs) ++ rest, rs⟩ = .next
        ⟨(dFeed hardware c b).1, feedAll bs ++ rest, answer (eventResult (dFeed hardware c b).2) :: rs⟩ := by
      rw [step_feed, execDfFeed_eq, finish_eq]
      rfl
    rw [List.length_cons, StateFamily.run_succ hstep, ih]
    simp

/-! ### Bytes between frames (R65) -/

/-- In `WAIT_START` only a marker is not skipped. -/
theorem feed_idle {bs : List Byte} (h : ∀ b ∈ bs, b ≠ 0x5E#8) :
    StateFamily.feedContext Context.clear bs = Context.clear ∧
      feedAnswers Context.clear bs = List.replicate bs.length {} := by
  induction bs with
  | nil => exact ⟨rfl, rfl⟩
  | cons b bs ih =>
    obtain ⟨hb, hbs⟩ := List.forall_mem_cons.1 h
    have hskip : dFeed hardware Context.clear b = (Context.clear, .none) := by
      rw [Context.clear, dFeed_waitStart, if_neg hb, Context.clear]
    obtain ⟨hctx, hans⟩ := ih hbs
    rw [StateFamily.feedContext_cons, feedAnswers_cons, hskip, hctx, hans]
    exact ⟨rfl, rfl⟩

/-- Settles O43. -/
theorem idleBytesAreSkipped : Obligations.IdleBytesAreSkipped := by
  intro bs rest rs h
  obtain ⟨hctx, hans⟩ := feed_idle h
  rw [run_feedAll_eq, hctx, hans, List.reverse_replicate]

/-! ### Whole frames (R137, R138) -/

/-- The bytes of an escaped data byte, low or high, are answered with nothing. -/
theorem feedAnswers_esc {st : DfState} (hst : st = .readDataLow ∨ st = .readDataHigh) (sl : BitVec 1)
    (id lo hi b : Byte) :
    feedAnswers ⟨st, sl, id, lo, hi⟩ (esc hardware b) = List.replicate (esc hardware b).length {} := by
  rw [esc_hardware]
  rcases hst with rfl | rfl
  all_goals
    split
    · rfl
    · split
      · rfl
      next h => simp [h, eventResult]

/-- The two data bytes of a value, low byte first, give it back (R10). -/
theorem unle16_extract (v : Half) : unle16 (v.extractLsb' 0 8) (v.extractLsb' 8 8) = v := by
  apply BitVec.eq_of_getLsbD_eq
  intro i hi
  rw [unle16]
  by_cases h : i < 8
  · simp [h, hi]
  · have hlt : i - 8 < 8 := by omega
    have hadd : 8 + (i - 8) = i := by omega
    simp [h, hi, hlt, hadd]

/-- A whole frame leaves the cleared context it started from. -/
theorem feedContext_frame (id : Byte) (v : Half) :
    StateFamily.feedContext Context.clear (frame hardware id v) = Context.clear := by
  have hstart : StateFamily.feedContext Context.clear [0x5E#8, id] = ⟨.readDataLow, 0, id, 0, 0⟩ := rfl
  simp only [frame, hardware_dMark, StateFamily.feedContext_append, hstart, StateFamily.feedContext_esc_low,
    StateFamily.feedContext_esc_high]
  rfl

/-- The bytes of a frame but the last are answered with nothing, the last one with the frame (R137). -/
theorem feedAnswers_frame (id : Byte) (v : Half) :
    feedAnswers Context.clear (frame hardware id v) =
      List.replicate ((frame hardware id v).length - 1) ({} : Response) ++ [{ ev := 1, rk := id, rx := v }] := by
  have hstart : StateFamily.feedContext Context.clear [0x5E#8, id] = ⟨.readDataLow, 0, id, 0, 0⟩ := rfl
  have hbegin : feedAnswers Context.clear [0x5E#8, id] = List.replicate 2 {} := rfl
  have hend (lo hi : Byte) : feedAnswers ⟨.waitEnd, 0, id, lo, hi⟩ [0x5E#8] =
      [{ ev := 1, rk := id, rx := unle16 lo hi }] := rfl
  have hlen : 2 + ((esc hardware (v.extractLsb' 0 8)).length + (esc hardware (v.extractLsb' 8 8)).length) =
      (frame hardware id v).length - 1 := by
    rw [frame_length]
    omega
  rw [← hlen]
  simp only [frame, hardware_dMark, feedAnswers_append, hstart, hbegin,
    StateFamily.feedContext_esc_low, StateFamily.feedContext_esc_high, feedAnswers_esc (.inl rfl),
    feedAnswers_esc (.inr rfl), hend, unle16_extract, ← List.replicate_append_replicate, List.append_assoc]

/-- Frames one after the other: each starts where the one before it left the context. -/
theorem feed_frames (fs : List (Byte × Half)) :
    StateFamily.feedContext Context.clear (fs.flatMap fun f => frame hardware f.1 f.2) = Context.clear ∧
      feedAnswers Context.clear (fs.flatMap fun f => frame hardware f.1 f.2) = fs.flatMap fun f =>
        List.replicate ((frame hardware f.1 f.2).length - 1) ({} : Response) ++
          [{ ev := 1, rk := f.1, rx := f.2 }] := by
  induction fs with
  | nil => exact ⟨rfl, rfl⟩
  | cons f fs ih =>
    obtain ⟨hctx, hans⟩ := ih
    simp only [List.flatMap_cons, StateFamily.feedContext_append, feedAnswers_append, feedContext_frame,
      feedAnswers_frame, hctx, hans, and_self]

/-- Settles O41. -/
theorem frameSequencesAreDelivered : Obligations.FrameSequencesAreDelivered := by
  rintro fs rest rs bs rfl
  obtain ⟨hctx, hans⟩ := feed_frames fs
  refine ⟨_, by rw [run_feedAll_eq, hctx], fun r hr => ?_, ?_⟩
  · rw [List.mem_reverse, hans, List.mem_flatMap] at hr
    obtain ⟨f, -, hf⟩ := hr
    rcases List.mem_append.1 hf with h | h
    · rw [List.eq_of_mem_replicate h]
    · rw [List.mem_singleton.1 h]
  · rw [List.filter_reverse, hans, List.filter_flatMap, List.map_eq_flatMap]
    simp

end Sys2Proof.EncodingFamily
end

section
/-! PROOFS. The value quantizer family (40_value_quantizer.md R102 to R118): truncation and rounding as the claims
speak of them, the error of one float rounding, and each of the seven operations on top of these. -/

namespace Sys2Proof.QuantizerFamily

open Sys2Proof.Machine

/-! ### How an operation that leaves the context ends -/

section
variable {i : Instr} {s : State}

theorem exec_of_result_ok {r : Response} (hctx : StateFamily.contextAfter i s.ctx = s.ctx)
    (h : EncodingFamily.result i s.ctx = .ok r) : exec i s = .next ⟨s.ctx, s.inputs, r :: s.responses⟩ := by
  rw [EncodingFamily.exec_eq, hctx, h, EncodingFamily.answer_ok]

theorem exec_of_result_argumentRange (hctx : StateFamily.contextAfter i s.ctx = s.ctx)
    (h : EncodingFamily.result i s.ctx = .error .argumentRange) :
    exec i s = .next ⟨s.ctx, s.inputs, { st := 3 } :: s.responses⟩ := by
  rw [EncodingFamily.exec_eq, hctx, h, EncodingFamily.answer_error]
  rfl

end

/-! ### Truncation (R9) -/

section
variable {v : Rat} {b : Int}

theorem isTrunc_neg (h : IsTrunc v b) : IsTrunc (-v) (-b) := by
  obtain ⟨hle, hlt, hsign⟩ := h
  refine ⟨?_, ?_, ?_⟩ <;> push_cast
  · rwa [abs_neg, abs_neg]
  · rwa [neg_sub_neg, abs_sub_comm]
  · rwa [neg_mul_neg]

theorem isTrunc_eq_floor (h : IsTrunc v b) (hv : 0 ≤ v) : b = ⌊v⌋ := by
  obtain ⟨hle, hlt, hsign⟩ := h
  rw [abs_of_nonneg hv] at hle
  exact (Int.floor_eq_iff.2 ⟨(le_abs_self _).trans hle, by linarith [(abs_lt.1 hlt).2]⟩).symm

theorem isTrunc_eq_ceil (h : IsTrunc v b) (hv : v ≤ 0) : b = ⌈v⌉ := by
  have hfloor := isTrunc_eq_floor (isTrunc_neg h) (neg_nonneg.2 hv)
  rw [Int.floor_neg] at hfloor
  exact neg_injective hfloor

theorem isTrunc_unique {b' : Int} (h : IsTrunc v b) (h' : IsTrunc v b') : b = b' := by
  rcases le_total 0 v with hv | hv
  · rw [isTrunc_eq_floor h hv, isTrunc_eq_floor h' hv]
  · rw [isTrunc_eq_ceil h hv, isTrunc_eq_ceil h' hv]

/-- The truncation fits 16 bits exactly for the values strictly between -32769 and 32768 (R102). -/
theorem isTrunc_mem_int16_iff (h : IsTrunc v b) : (-32768 ≤ b ∧ b ≤ 32767) ↔ (-32769 < v ∧ v < 32768) := by
  rcases le_total 0 v with hv | hv
  · have hb := isTrunc_eq_floor h hv
    have hpos : 0 ≤ b := hb ▸ Int.floor_nonneg.2 hv
    have hup : b < 32768 ↔ v < 32768 := by rw [hb, Int.floor_lt]; norm_num
    rw [← hup]
    exact ⟨fun hr => ⟨by linarith, by omega⟩, fun hr => ⟨by omega, by omega⟩⟩
  · have hb := isTrunc_eq_ceil h hv
    have hneg : b ≤ 0 := by rw [hb, Int.ceil_le]; exact_mod_cast hv
    have hlo : -32769 < b ↔ -32769 < v := by rw [hb, Int.lt_ceil]; norm_num
    rw [← hlo]
    exact ⟨fun hr => ⟨by omega, by linarith⟩, fun hr => ⟨by omega, by omega⟩⟩

end

theorem truncFrac_eq {q : Frac} (hd : q.den ≠ 0) {b : Int} (h : IsTrunc q.toRat b) : truncFrac hardware q = b :=
  isTrunc_unique (truncFrac_spec q hd) h

/-! ### Rounding (R9) -/

theorem roundFrac_eq {q : Frac} (hd : q.den ≠ 0) {a : Int} (h : IsRoundAway q.toRat a) : roundFrac hardware q = a :=
  (roundFrac_spec q hd).unique h

/-- Every rational has a rounding: the model's, of any fraction that stands for it. -/
theorem exists_isRoundAway (v : Rat) : ∃ a : Int, IsRoundAway v a := by
  have h := roundFrac_spec ⟨v.num, v.den⟩ v.den_nz
  rw [Frac.toRat, Rat.num_div_den] at h
  exact ⟨_, h⟩

section
variable {x : Rat} {a : Int}

/-- Rounding keeps an integer lower bound. -/
theorem le_of_isRoundAway (h : IsRoundAway x a) {n : Int} (hn : (n : Rat) ≤ x) : n ≤ a := by
  have hhalf := (abs_le.1 h.1).2
  have hlt : (n : Rat) < a + 1 := by linarith
  exact Int.lt_add_one_iff.1 (by exact_mod_cast hlt)

/-- Rounding keeps an integer upper bound. -/
theorem isRoundAway_le (h : IsRoundAway x a) {n : Int} (hn : x ≤ n) : a ≤ n := by
  have hhalf := (abs_le.1 h.1).1
  have hlt : (a : Rat) < n + 1 := by linarith
  exact Int.lt_add_one_iff.1 (by exact_mod_cast hlt)

/-- Rounding in units of `1 / m` errs by half a unit at most. -/
theorem abs_div_sub_le_half_unit {m : Rat} (hm : 0 < m) (h : IsRoundAway (x * m) a) : |a / m - x| ≤ 1 / (2 * m) := by
  have hscale : (a : Rat) / m - x = -((x * m - a) / m) := by field_simp; ring
  rw [hscale, abs_neg, abs_div, abs_of_pos hm, ← div_div]
  exact div_le_div_of_nonneg_right h.1 hm.le

end

/-! ### The error of one float rounding -/

/-- In the normal range `toFloat` errs by half a unit in the last place, at most `2^-24` of the value. -/
theorem abs_toFloat_sub_le_of_normal {q : Frac} (hd : q.den ≠ 0) (hlo : 2 ^ (-126 : Int) ≤ |q.toRat|)
    (hhi : |q.toRat| < 2 ^ (127 : Int)) :
    |(realOf hardware (toFloat hardware q)).toRat - q.toRat| ≤ |q.toRat| / 2 ^ 24 := by
  have hpos : 0 < |q.toRat| := lt_of_lt_of_le (by positivity) hlo
  have hq : q.num ≠ 0 := by rwa [Ne, ← Scope.toRat_eq_zero_iff hd, ← abs_eq_zero, ← Ne, ← abs_pos, abs_abs]
  have hge : -126 ≤ Int.log 2 |q.toRat| := (Int.zpow_le_iff_le_log one_lt_two hpos).1 hlo
  have hle : Int.log 2 |q.toRat| < 127 := (Int.lt_zpow_iff_log_lt one_lt_two hpos).1 hhi
  have hbinade : (2 : Rat) ^ Int.log 2 |q.toRat| ≤ |q.toRat| := by simpa using Int.zpow_log_le_self one_lt_two hpos
  have hm := Scope.significandAt_mem hd hbinade (by simpa using Int.lt_zpow_succ_log_self one_lt_two |q.toRat|)
  have hhalf := (Scope.significandAt_nearest hd (Int.log 2 |q.toRat|)).1
  rw [Scope.toFloat_of_normal hd hq rfl hge (by omega), Scope.abs_sub_toRat, Scope.sign_mul_realOf_pack _ (by omega),
    Scope.abs_realOf_pack _ hm ⟨hge, by omega⟩]
  generalize Int.log 2 |q.toRat| = e at *
  have hu : (0 : Rat) < 2 ^ (e - 23) := by positivity
  calc abs ((Scope.significandAt q e : Rat) * 2 ^ (e - 23) - |q.toRat|)
    _ = |(Scope.significandAt q e : Rat) - |q.toRat| / 2 ^ (e - 23)| * 2 ^ (e - 23) := by
        rw [← abs_of_pos hu, ← abs_mul, abs_of_pos hu, sub_mul, div_mul_cancel₀ _ hu.ne']
    _ ≤ 1 / 2 * 2 ^ (e - 23) := mul_le_mul_of_nonneg_right hhalf hu.le
    _ = 2 ^ e / 2 ^ 24 := by rw [← Scope.two_pow_23_mul_unit e]; ring
    _ ≤ |q.toRat| / 2 ^ 24 := by gcongr

/-- The same for a fraction of bounded parts, which is 0 or lies in the normal range. -/
theorem abs_toFloat_sub_le {q : Frac} (hd : q.den ≠ 0) (hden : q.den ≤ 2 ^ 126) (hnum : q.num.natAbs < 2 ^ 127) :
    |(realOf hardware (toFloat hardware q)).toRat - q.toRat| ≤ |q.toRat| / 2 ^ 24 := by
  by_cases hq : q.num = 0
  · have hzero : (realOf hardware 0#32).toRat = 0 := by
      rw [Scope.realOf_toRat, show Scope.significand 0#32 = 0 from rfl]; simp
    rw [Scope.toFloat_zero hq, (Scope.toRat_eq_zero_iff hd).2 hq, hzero]
    norm_num
  · have hnum_one : (1 : Rat) ≤ q.num.natAbs := by exact_mod_cast Int.natAbs_pos.2 hq
    have hden_one : (1 : Rat) ≤ q.den := by exact_mod_cast Nat.pos_of_ne_zero hd
    have hden' : (q.den : Rat) ≤ 2 ^ 126 := by exact_mod_cast hden
    have hnum' : (q.num.natAbs : Rat) < 2 ^ 127 := by exact_mod_cast hnum
    apply abs_toFloat_sub_le_of_normal hd <;> rw [Scope.abs_toRat]
    · rw [le_div_iff₀ (by linarith), zpow_neg, inv_mul_le_iff₀ (by positivity)]
      exact hden'.trans (le_mul_of_one_le_right (by positivity) hnum_one)
    · exact (div_le_self (by positivity) hden_one).trans_lt hnum'

/-- A scale that is not refused is positive. -/
theorem scale_pos {m : Half} (h : m ≠ 0) : (0 : Rat) < m.toNat := by
  have hm : 0 < m.toNat := by bv_omega
  exact_mod_cast hm

/-! ### VQ.SPLIT (R102, R103) -/

section
variable {fa : Word} {mul : Half}

/-- The scaled distance that `VQ.SPLIT` rounds. -/
theorem splitDistance_toRat (b : Int) :
    (((realOf hardware fa).sub (Frac.ofInt b)).abs.mulNat mul.toNat).toRat =
      |(realOf hardware fa).toRat - b| * mul.toNat := by
  rw [Frac.toRat_mulNat, Frac.toRat_abs, Frac.toRat_sub _ _ (realOf_den_ne_zero fa) one_ne_zero, Frac.toRat_ofInt]

/-- `VQ.SPLIT` by the truncation `b` and the rounded scaled distance `a`. -/
theorem vqSplit_eq {b a : Int} (hfin : floatClass hardware fa = .finite) (hmul : mul ≠ 0)
    (hb : IsTrunc (realOf hardware fa).toRat b)
    (ha : IsRoundAway (|(realOf hardware fa).toRat - b| * mul.toNat) a) :
    vqSplit hardware fa mul = if b < -32768 ∨ b > 32767 then .error .argumentRange
      else .ok { rx := BitVec.ofInt 16 b, ry := BitVec.ofInt 16 a } := by
  rw [← splitDistance_toRat] at ha
  have hden : (((realOf hardware fa).sub (Frac.ofInt b)).abs.mulNat mul.toNat).den ≠ 0 :=
    mul_ne_zero (realOf_den_ne_zero fa) one_ne_zero
  simp only [vqSplit, hfin, hmul, truncFrac_eq (realOf_den_ne_zero fa) hb, roundFrac_eq hden ha, ne_eq,
    not_true_eq_false, if_false]

theorem vqSplit_refused (h : floatClass hardware fa ≠ .finite ∨ mul = 0) :
    vqSplit hardware fa mul = .error .argumentRange := by
  unfold vqSplit
  by_cases hfin : floatClass hardware fa = .finite
  · rw [if_neg (not_not.2 hfin), if_pos (h.resolve_left (not_not.2 hfin))]
  · rw [if_pos hfin]

end

/-- The rounded scaled distance lies between 0 and the scale, which it may reach (R104). -/
theorem after_mem {v : Rat} {b a : Int} {m : Nat} (hb : IsTrunc v b) (ha : IsRoundAway (|v - b| * m) a) :
    0 ≤ a ∧ a ≤ m := by
  obtain ⟨-, hlt, -⟩ := hb
  refine ⟨le_of_isRoundAway ha (by push_cast; positivity), isRoundAway_le ha ?_⟩
  push_cast
  exact mul_le_of_le_one_left (by positivity) hlt.le

/-- Settles O24: truncation and rounding are unique, so the model's are the claim's. -/
theorem splitTruncatesAndRounds : Obligations.SplitTruncatesAndRounds := by
  intro fa mul s
  have hb := truncFrac_spec (realOf hardware fa) (realOf_den_ne_zero fa)
  generalize truncFrac hardware (realOf hardware fa) = b at hb
  obtain ⟨a, ha⟩ := exists_isRoundAway (|(realOf hardware fa).toRat - b| * mul.toNat)
  have hrange := isTrunc_mem_int16_iff hb
  constructor
  · intro hfin hmul hlo hhi
    obtain ⟨hblo, hbhi⟩ := hrange.2 ⟨hlo, hhi⟩
    obtain ⟨ha0, ham⟩ := after_mem hb ha
    refine ⟨b, a, hb, hblo, hbhi, ha, ha0, ham, exec_of_result_ok rfl ?_⟩
    exact (vqSplit_eq hfin hmul hb ha).trans (if_neg (by omega))
  · intro h
    apply exec_of_result_argumentRange rfl
    by_cases hop : floatClass hardware fa ≠ .finite ∨ mul = 0
    · exact vqSplit_refused hop
    · obtain ⟨hfin, hmul⟩ := not_or.1 hop
      have hout : ¬ (-32769 < (realOf hardware fa).toRat ∧ (realOf hardware fa).toRat < 32768) := by
        rcases h with h | h | h | h
        · exact absurd h hfin
        · exact absurd h hmul
        · exact fun hr => h.not_gt hr.1
        · exact fun hr => h.not_gt hr.2
      rw [← hrange] at hout
      exact (vqSplit_eq (not_not.1 hfin) hmul hb ha).trans (if_pos (by omega))

/-- A pattern with its sign bit inverted has the same exponent and fraction fields (R82). -/
theorem fields_flipSign (f : Word) : floatExponent (f ^^^ 0x80000000#32) = floatExponent f ∧
    floatFraction (f ^^^ 0x80000000#32) = floatFraction f ∧ (f ^^^ 0x80000000#32).msb = !f.msb := by
  refine ⟨?_, ?_, ?_⟩
  · rw [floatExponent, BitVec.extractLsb'_xor]; simp [floatExponent]
  · rw [floatFraction, BitVec.extractLsb'_xor]; simp [floatFraction]
  · rw [BitVec.msb_xor, show BitVec.msb 0x80000000#32 = true from rfl, Bool.xor_true]

theorem floatClass_flipSign (f : Word) : floatClass hardware (f ^^^ 0x80000000#32) = floatClass hardware f := by
  obtain ⟨hexp, hfrac, -⟩ := fields_flipSign f
  simp only [floatClass, hexp, hfrac]

theorem sign_not (neg : Bool) : Scope.sign (!neg) = -Scope.sign neg := by cases neg <;> simp [Scope.sign]

theorem realOf_flipSign (f : Word) :
    (realOf hardware (f ^^^ 0x80000000#32)).toRat = -(realOf hardware f).toRat := by
  obtain ⟨hexp, hfrac, hmsb⟩ := fields_flipSign f
  simp only [Scope.realOf_toRat, Scope.significand, Scope.unitExponent, hexp, hfrac, hmsb, sign_not, neg_mul]

theorem isTrunc_zero {v : Rat} (h : |v| < 1) : IsTrunc v 0 := by
  refine ⟨?_, ?_, ?_⟩ <;> simp [h]

/-- `VQ.SPLIT` of a magnitude below 1 depends on the magnitude alone. -/
theorem vqSplit_of_abs_lt_one {fa : Word} {mul : Half} {a : Int} (hfin : floatClass hardware fa = .finite)
    (hmul : mul ≠ 0) (hlt : |(realOf hardware fa).toRat| < 1)
    (ha : IsRoundAway (|(realOf hardware fa).toRat| * mul.toNat) a) :
    vqSplit hardware fa mul = .ok { ry := BitVec.ofInt 16 a } :=
  vqSplit_eq hfin hmul (isTrunc_zero hlt) (by simpa using ha)

/-- Settles O25. -/
theorem splitLosesSignBelowOne : Obligations.SplitLosesSignBelowOne := by
  intro fa mul s hfin hmul hlt
  obtain ⟨a, ha⟩ := exists_isRoundAway (|(realOf hardware fa).toRat| * mul.toNat)
  have hsplit := vqSplit_of_abs_lt_one hfin hmul hlt ha
  have hflip : vqSplit hardware (fa ^^^ 0x80000000#32) mul = .ok { ry := BitVec.ofInt 16 a } := by
    apply vqSplit_of_abs_lt_one ((floatClass_flipSign fa).trans hfin) hmul <;> rwa [realOf_flipSign, abs_neg]
  refine ⟨a, ha, le_of_isRoundAway ha (by push_cast; positivity), exec_of_result_ok rfl hsplit, ?_⟩
  rw [exec_of_result_ok (i := .vqSplit _ mul) rfl hflip, exec_of_result_ok (i := .vqSplit _ mul) rfl hsplit]

/-! ### VQ.JOIN and the round trip (R105, R107) -/

section
variable {x y mul : Half}

theorem joinExact_den_ne_zero (hmul : mul ≠ 0) : (joinExact x y mul).den ≠ 0 := by
  rw [EncodingFamily.joinExact_den]
  bv_omega

theorem joinExact_toRat (hmul : mul ≠ 0) : (joinExact x y mul).toRat =
    if 0 ≤ x.toInt then (x.toInt : Rat) + (y.toNat : Rat) / mul.toNat
      else (x.toInt : Rat) - (y.toNat : Rat) / mul.toNat := by
  have hm := (scale_pos hmul).ne'
  rw [Frac.toRat, EncodingFamily.joinExact_num, EncodingFamily.joinExact_den]
  split <;> push_cast <;> field_simp
  ring

theorem vqJoin_eq (hmul : mul ≠ 0) :
    vqJoin hardware x y mul = .ok { rf := toFloat hardware (joinExact x y mul) } := if_neg hmul

theorem abs_toFloat_joinExact_sub_le (hmul : mul ≠ 0) :
    |(realOf hardware (toFloat hardware (joinExact x y mul))).toRat - (joinExact x y mul).toRat| ≤
      |(joinExact x y mul).toRat| / 2 ^ 24 := by
  have hm := mul.isLt
  have hy := y.isLt
  have hprod : (x.toInt * mul.toNat).natAbs ≤ 2 ^ 16 * 2 ^ 16 := by
    rw [Int.natAbs_mul, Int.natAbs_natCast]
    exact Nat.mul_le_mul (EncodingFamily.natAbs_toInt_le x) hm.le
  refine abs_toFloat_sub_le (joinExact_den_ne_zero hmul) ?_ ?_
  · rw [EncodingFamily.joinExact_den]; omega
  · rw [EncodingFamily.joinExact_num]; split <;> omega

end

/-- Settles O26. -/
theorem joinAddsOrSubtracts : Obligations.JoinAddsOrSubtracts := by
  intro x y mul s
  constructor
  · intro hmul
    exact ⟨_, joinExact_den_ne_zero hmul, joinExact_toRat hmul, exec_of_result_ok rfl (vqJoin_eq hmul)⟩
  · intro hmul
    exact exec_of_result_argumentRange rfl (if_pos hmul)

/-- What `VQ.JOIN` computes from the two results of `VQ.SPLIT`: the truncation, with the scaled distance put back on
the side that its sign tells. -/
theorem joinExact_of_split {b a : Int} {mul : Half} (hmul : mul ≠ 0) (hb : -32768 ≤ b ∧ b ≤ 32767)
    (ha : 0 ≤ a ∧ a ≤ mul.toNat) :
    (joinExact (BitVec.ofInt 16 b) (BitVec.ofInt 16 a) mul).toRat =
      if 0 ≤ b then (b : Rat) + (a : Rat) / mul.toNat else (b : Rat) - (a : Rat) / mul.toNat := by
  have hm := mul.isLt
  have hx : (BitVec.ofInt 16 b).toInt = b := BitVec.toInt_ofInt_eq_self (by norm_num) hb.1 (by omega)
  have hy : ((BitVec.ofInt 16 a).toNat : Int) = a := by
    rw [BitVec.toNat_ofInt]; omega
  have hyq : ((BitVec.ofInt 16 a).toNat : Rat) = a := by exact_mod_cast hy
  rw [joinExact_toRat hmul, hx, hyq]

section
variable {v x err : Rat} {b : Int}

/-- Where the truncation tells the side, an approximation `x` of the distance put back on it approximates the value
as well (R107). -/
theorem abs_signed_distance_sub_le (hb : IsTrunc v b) (hx : |x - (|v - b|)| ≤ err) (hv : 0 ≤ v ∨ v ≤ -1) :
    |(if 0 ≤ b then (b : Rat) + x else b - x) - v| ≤ err := by
  rcases hv with hv | hv
  · have hfloor := isTrunc_eq_floor hb hv
    have hle : (b : Rat) ≤ v := hfloor ▸ Int.floor_le v
    rw [abs_of_nonneg (sub_nonneg.2 hle)] at hx
    rwa [if_pos (hfloor ▸ Int.floor_nonneg.2 hv), add_comm, add_sub_assoc, ← neg_sub v, ← sub_eq_add_neg]
  · have hceil := isTrunc_eq_ceil hb (by linarith)
    have hle : v ≤ b := hceil ▸ Int.le_ceil v
    have hneg : b ≤ -1 := by rw [hceil, Int.ceil_le]; exact_mod_cast hv
    rw [abs_of_nonpos (sub_nonpos.2 hle), neg_sub, abs_sub_comm] at hx
    rwa [if_neg (by omega), sub_right_comm]

/-- Between -1 and 0 the truncation is 0 and tells no side, so the result approximates the magnitude (R103, R107). -/
theorem abs_unsigned_distance_sub_le (hb : IsTrunc v b) (hx : |x - (|v - b|)| ≤ err) (hv : -1 < v ∧ v < 0) :
    |(if 0 ≤ b then (b : Rat) + x else b - x) - (|v|)| ≤ err := by
  obtain rfl : b = 0 := isTrunc_unique hb (isTrunc_zero (abs_lt.2 ⟨hv.1, by linarith⟩))
  simpa using hx

end

/-- Settles O27: the rounded distance errs by half a unit, and the result of the join by one float rounding more. -/
theorem splitThenJoinWithinHalfUnit : Obligations.SplitThenJoinWithinHalfUnit := by
  intro fa mul s hfin hmul hlo hhi
  obtain ⟨b, a, hb, hblo, hbhi, ha, ha0, ham, hsplit⟩ := (splitTruncatesAndRounds fa mul s).1 hfin hmul hlo hhi
  have hjoin := joinExact_of_split hmul ⟨hblo, hbhi⟩ ⟨ha0, ham⟩
  have herr := abs_div_sub_le_half_unit (scale_pos hmul) ha
  refine ⟨_, _, _, _, hsplit, exec_of_result_ok rfl (vqJoin_eq hmul), abs_toFloat_joinExact_sub_le hmul,
    fun hv => ?_, fun hv => ?_⟩
  · rw [hjoin]
    exact abs_signed_distance_sub_le hb herr hv
  · rw [hjoin]
    exact abs_unsigned_distance_sub_le hb herr hv

/-! ### VQ.DMS (R108, R109) -/

theorem dmsSeconds_toRat (y : Half) : (dmsSeconds hardware y).toRat = (y.toNat : Rat) * (6 / 1000) := by
  rw [dmsSeconds, Frac.toRat_divNat, Frac.toRat_mulNat, Frac.toRat_ofInt, hardware_dmsSecNum, hardware_dmsSecDen]
  push_cast
  ring

/-- The remainder of a truncating division has the sign of the dividend. -/
theorem tmod_sign (a n : Int) : (0 ≤ a → 0 ≤ a.tmod n) ∧ (a ≤ 0 → a.tmod n ≤ 0) := by
  refine ⟨Int.tmod_nonneg n, fun h => ?_⟩
  rw [← neg_nonneg, ← Int.neg_tmod]
  exact Int.tmod_nonneg n (neg_nonneg.2 h)

theorem vqDms_eq (x y : Half) : vqDms hardware x y = .ok
    { rx := BitVec.ofInt 16 (x.toInt.tdiv 100), ry := BitVec.ofInt 16 (x.toInt.tmod 100),
      rf := toFloat hardware (dmsSeconds hardware y) } := by
  simp only [vqDms, divInt, remInt, hardware_divMod]

/-- Settles O28. -/
theorem dmsDividesTowardZero : Obligations.DmsDividesTowardZero := by
  intro x y s
  have hx := BitVec.toInt_lt (x := x)
  have hx' := BitVec.le_toInt (x := x)
  have hy : (y.toNat : Rat) ≤ 65535 := by exact_mod_cast Nat.le_of_lt_succ y.isLt
  have hdm : 100 * x.toInt.tdiv 100 + x.toInt.tmod 100 = x.toInt := Int.mul_tdiv_add_tmod _ _
  have hlt := Int.tmod_lt_of_pos x.toInt (b := 100) (by norm_num)
  have hgt := Int.lt_tmod_of_pos x.toInt (b := 100) (by norm_num)
  obtain ⟨hpos, hneg⟩ := tmod_sign x.toInt 100
  have hsign : 0 ≤ x.toInt.tmod 100 * x.toInt := by
    rcases le_total 0 x.toInt with h | h
    · exact mul_nonneg (hpos h) h
    · exact mul_nonneg_of_nonpos_of_nonpos (hneg h) h
  have hden : (dmsSeconds hardware y).den ≠ 0 := mul_ne_zero one_ne_zero (by norm_num)
  refine ⟨x.toInt.tdiv 100, x.toInt.tmod 100, dmsSeconds hardware y, hdm.symm, abs_lt.2 ⟨hgt, hlt⟩, hsign, by omega,
    by omega, by omega, by omega, hden, dmsSeconds_toRat y, ?_, exec_of_result_ok rfl (vqDms_eq x y)⟩
  rw [dmsSeconds_toRat]
  linarith

/-! ### VQ.QUANT and VQ.DEQUANT (R111, R113, R114) -/

theorem intFormat_eq_none_iff (k2 : Byte) : intFormat k2 = none ↔ k2.toNat % 4 = 3 := by
  rw [EncodingFamily.intFormat_eq, Nat.mod_mod_of_dvd _ (by norm_num)]
  split <;> simp_all

section
variable {fa z : Word} {mul div : Half} {k2 : Byte} {f : IntFormat}

/-- `VQ.QUANT` by the rounding `q` of the exact quotient. -/
theorem vqQuant_eq {q : Int} (hfin : floatClass hardware fa = .finite) (hmul : mul ≠ 0) (hdiv : div ≠ 0)
    (hf : intFormat k2 = some f) (hq : IsRoundAway ((realOf hardware fa).toRat * mul.toNat / div.toNat) q) :
    vqQuant hardware fa mul div k2 =
      if q < f.lo ∨ f.hi < q then .error .argumentRange else .ok { rz := BitVec.ofInt 32 q } := by
  have hden : (((realOf hardware fa).mulNat mul.toNat).divNat div.toNat).den ≠ 0 :=
    mul_ne_zero (realOf_den_ne_zero fa) (by bv_omega)
  rw [← Frac.toRat_mulNat, ← Frac.toRat_divNat] at hq
  simp only [vqQuant, hfin, hmul, hdiv, hf, roundFrac_eq hden hq, ne_eq, not_true_eq_false, or_self, if_false,
    gt_iff_lt]

theorem vqQuant_refused (h : floatClass hardware fa ≠ .finite ∨ mul = 0 ∨ div = 0 ∨ k2.toNat % 4 = 3) :
    vqQuant hardware fa mul div k2 = .error .argumentRange := by
  simp only [vqQuant]
  split_ifs with hfin hscale
  · rfl
  · rfl
  · have hnone : k2.toNat % 4 = 3 := by tauto
    rw [(intFormat_eq_none_iff k2).2 hnone]

theorem vqDequant_eq (hmul : mul ≠ 0) (hdiv : div ≠ 0) (hf : intFormat k2 = some f) :
    vqDequant hardware z mul div k2 = .ok { rf := toFloat hardware (dequantExact f z mul div) } := by
  simp only [vqDequant, hmul, hdiv, hf, or_self, if_false]

theorem vqDequant_refused (h : mul = 0 ∨ div = 0 ∨ k2.toNat % 4 = 3) :
    vqDequant hardware z mul div k2 = .error .argumentRange := by
  simp only [vqDequant]
  split_ifs with hscale
  · rfl
  · have hnone : k2.toNat % 4 = 3 := by tauto
    rw [(intFormat_eq_none_iff k2).2 hnone]

theorem dequantExact_den_ne_zero (hmul : mul ≠ 0) : (dequantExact f z mul div).den ≠ 0 :=
  mul_ne_zero one_ne_zero (by bv_omega)

theorem dequantExact_toRat :
    (dequantExact f z mul div).toRat = (f.read z : Rat) * div.toNat / mul.toNat := by
  rw [dequantExact, Frac.toRat_divNat, Frac.toRat_mulNat, Frac.toRat_ofInt]

theorem abs_toFloat_dequantExact_sub_le (hmul : mul ≠ 0) (hf : intFormat k2 = some f) :
    |(realOf hardware (toFloat hardware (dequantExact f z mul div))).toRat - (dequantExact f z mul div).toRat| ≤
      |(dequantExact f z mul div).toRat| / 2 ^ 24 := by
  have hm := mul.isLt
  have hden : (dequantExact f z mul div).den = mul.toNat := Nat.one_mul _
  refine abs_toFloat_sub_le (dequantExact_den_ne_zero hmul) (by omega) ?_
  calc (f.read z * div.toNat).natAbs
    _ = (f.read z).natAbs * div.toNat := by rw [Int.natAbs_mul, Int.natAbs_natCast]
    _ ≤ 2 ^ 32 * 2 ^ 16 := Nat.mul_le_mul ((EncodingFamily.natAbs_read_le f z).trans
        (Nat.pow_le_pow_right two_pos (EncodingFamily.intFormat_width_le hf))) div.isLt.le
    _ < 2 ^ 127 := by norm_num

/-- The integer that a format reads, by the low bits of the word as a number (R113). -/
theorem read_eq (f : IntFormat) (z : Word) :
    f.read z = if f.signed then Int.bmod z.toNat (2 ^ f.width) else ((z.toNat % 2 ^ f.width : Nat) : Int) := by
  simp only [IntFormat.read, BitVec.toInt_eq_toNat_bmod, BitVec.extractLsb'_toNat, Nat.shiftRight_zero,
    Int.natCast_mod, Int.emod_bmod]

theorem intFormat_width_pos (hf : intFormat k2 = some f) : 0 < f.width := by
  rw [EncodingFamily.intFormat_eq] at hf
  split_ifs at hf
  cases hf
  simp [Nat.shiftLeft_eq]

/-- The low bits of the 32-bit pattern of a number are its pattern of that width. -/
theorem extractLsb'_ofInt {w : Nat} (hw : w ≤ 32) (q : Int) :
    (BitVec.ofInt 32 q).extractLsb' 0 w = BitVec.ofInt w q := by
  have hdvd : ((2 ^ w : Nat) : Int) ∣ (2 ^ 32 : Nat) := Int.natCast_dvd_natCast.2 (pow_dvd_pow 2 hw)
  apply BitVec.eq_of_toNat_eq
  rw [BitVec.extractLsb'_toNat, Nat.shiftRight_zero, BitVec.toNat_ofInt, BitVec.toNat_ofInt, ← Int.natCast_inj,
    Int.natCast_mod, Int.toNat_of_nonneg (Int.emod_nonneg _ (by positivity)),
    Int.toNat_of_nonneg (Int.emod_nonneg _ (by positivity)), Int.emod_emod_of_dvd _ hdvd]

/-- A number in the range of a format is read back from its 32-bit pattern (R111, R113). -/
theorem read_ofInt (hf : intFormat k2 = some f) {q : Int} (hlo : f.lo ≤ q) (hhi : q ≤ f.hi) :
    f.read (BitVec.ofInt 32 q) = q := by
  simp only [IntFormat.lo, IntFormat.hi] at hlo hhi
  simp only [IntFormat.read, extractLsb'_ofInt (EncodingFamily.intFormat_width_le hf)]
  by_cases hs : f.signed
  · rw [if_pos hs] at hlo hhi ⊢
    exact BitVec.toInt_ofInt_eq_self (intFormat_width_pos hf) hlo (by omega)
  · rw [if_neg hs] at hlo hhi ⊢
    rw [BitVec.toNat_ofInt, Int.toNat_of_nonneg (Int.emod_nonneg _ (by positivity))]
    exact Int.emod_eq_of_lt hlo (by push_cast; omega)

end

/-- Settles O29. -/
theorem quantRoundsThenChecksRange : Obligations.QuantRoundsThenChecksRange := by
  intro fa mul div k2 s
  refine ⟨fun f q hfin hmul hdiv hf hq => ⟨fun hlo hhi => ?_, fun hout => ?_⟩, fun h => ?_⟩
  · exact exec_of_result_ok rfl ((vqQuant_eq hfin hmul hdiv hf hq).trans (if_neg (by omega)))
  · exact exec_of_result_argumentRange rfl ((vqQuant_eq hfin hmul hdiv hf hq).trans (if_pos hout))
  · exact exec_of_result_argumentRange rfl (vqQuant_refused h)

/-- Settles O30. -/
theorem dequantScalesLowBits : Obligations.DequantScalesLowBits := by
  intro z mul div k2 s
  refine ⟨fun f hmul hdiv hf => ?_, fun h => exec_of_result_argumentRange rfl (vqDequant_refused h)⟩
  refine ⟨f.read z, dequantExact f z mul div, fun hu => ?_, fun hs => ?_, dequantExact_den_ne_zero hmul,
    dequantExact_toRat, exec_of_result_ok rfl (vqDequant_eq hmul hdiv hf)⟩
  · rw [read_eq, hu]; rfl
  · rw [read_eq, if_pos hs]

/-- What a successful `VQ.QUANT` tells: its operands, and its result as the rounding of the exact quotient. -/
theorem quant_success {fa rz : Word} {mul div : Half} {k2 : Byte} {s : State}
    (h : exec (.vqQuant fa mul div k2) s = .next ⟨s.ctx, s.inputs, { rz := rz } :: s.responses⟩) :
    mul ≠ 0 ∧ div ≠ 0 ∧ ∃ (f : IntFormat) (q : Int), intFormat k2 = some f ∧ f.lo ≤ q ∧ q ≤ f.hi ∧
      IsRoundAway ((realOf hardware fa).toRat * mul.toNat / div.toNat) q ∧ rz = BitVec.ofInt 32 q := by
  obtain ⟨haccept, hrefuse⟩ := quantRoundsThenChecksRange fa mul div k2 s
  by_cases hbad : floatClass hardware fa ≠ .finite ∨ mul = 0 ∨ div = 0 ∨ k2.toNat % 4 = 3
  · cases (hrefuse hbad).symm.trans h
  · simp only [ne_eq, not_or, not_not] at hbad
    obtain ⟨hfin, hmul, hdiv, hfmt⟩ := hbad
    obtain ⟨f, hf⟩ := Option.ne_none_iff_exists'.1 (mt (intFormat_eq_none_iff k2).1 hfmt)
    obtain ⟨q, hq⟩ := exists_isRoundAway ((realOf hardware fa).toRat * mul.toNat / div.toNat)
    obtain ⟨hin, hout⟩ := haccept f q hfin hmul hdiv hf hq
    by_cases hrange : q < f.lo ∨ f.hi < q
    · cases (hout hrange).symm.trans h
    · have hlo : f.lo ≤ q := by omega
      have hhi : q ≤ f.hi := by omega
      cases (hin hlo hhi).symm.trans h
      exact ⟨hmul, hdiv, f, q, hf, hlo, hhi, hq, rfl⟩

/-- Settles O31: the result is read back whole, and its rounding errs by half a unit `DIV/MUL`. -/
theorem quantThenDequantWithinHalfUnit : Obligations.QuantThenDequantWithinHalfUnit := by
  intro fa mul div k2 s rz h
  obtain ⟨hmul, hdiv, f, q, hf, hlo, hhi, hq, rfl⟩ := quant_success h
  refine ⟨_, _, exec_of_result_ok rfl (vqDequant_eq hmul hdiv hf), abs_toFloat_dequantExact_sub_le hmul hf, ?_⟩
  rw [mul_div_assoc] at hq
  have herr := abs_div_sub_le_half_unit (div_pos (scale_pos hmul) (scale_pos hdiv)) hq
  rw [dequantExact_toRat, read_ofInt hf hlo hhi]
  convert herr using 1
  · rw [div_div_eq_mul_div]
  · field_simp

/-! ### The cell packings (R115 to R118) -/

/-- `CellScaled` by the rounded voltage times 500 (R117). -/
theorem cellScaled_eq {f : Word} {n : Int} (hfin : floatClass hardware f = .finite)
    (hn : IsRoundAway ((realOf hardware f).toRat * 500) n) :
    cellScaled hardware f = if n < 0 ∨ 4095 < n then .error .argumentRange else .ok (BitVec.ofInt 12 n) := by
  have hrat : ((realOf hardware f).mulNat hardware.cellScale).toRat = (realOf hardware f).toRat * 500 := by
    rw [Frac.toRat_mulNat]; norm_num
  rw [← hrat] at hn
  have hden : ((realOf hardware f).mulNat hardware.cellScale).den ≠ 0 := realOf_den_ne_zero f
  simp only [cellScaled, hfin, roundFrac_eq hden hn, hardware_cellBits, ne_eq, not_true_eq_false, if_false]
  norm_num

theorem cellScaled_of_fits {f : Word} {n : Nat} (hfin : floatClass hardware f = .finite)
    (hn : IsRoundAway ((realOf hardware f).toRat * 500) n) (hle : n ≤ 4095) :
    cellScaled hardware f = .ok (BitVec.ofNat 12 n) := by
  rw [cellScaled_eq hfin hn, if_neg (by omega), BitVec.ofInt_natCast]

theorem cellScaled_refused {f : Word} (h : floatClass hardware f ≠ .finite ∨
    ∃ n : Int, IsRoundAway ((realOf hardware f).toRat * 500) n ∧ (n < 0 ∨ 4095 < n)) :
    cellScaled hardware f = .error .argumentRange := by
  by_cases hfin : floatClass hardware f = .finite
  · obtain ⟨n, hn, hout⟩ := h.resolve_left (not_not.2 hfin)
    rw [cellScaled_eq hfin hn, if_pos hout]
  · exact if_pos hfin

/-- The one error that `CellScaled` raises (R117). -/
theorem cellScaled_error {f : Word} {e : Error} (h : cellScaled hardware f = .error e) : e = .argumentRange := by
  simp only [cellScaled] at h
  split_ifs at h <;> cases h <;> rfl

/-- Two bit fields side by side are the sum of their places. -/
theorem toNat_or_shiftLeft {w i : Nat} {a b : BitVec w} (ha : a.toNat < 2 ^ i) (hb : 2 ^ i * b.toNat < 2 ^ w) :
    (a ||| b <<< i).toNat = a.toNat + 2 ^ i * b.toNat := by
  have hshift : (b <<< i).toNat = 2 ^ i * b.toNat := by
    rw [BitVec.toNat_shiftLeft, Nat.shiftLeft_eq, mul_comm, Nat.mod_eq_of_lt hb]
  rw [BitVec.toNat_or, hshift, Nat.or_comm, ← Nat.two_pow_add_eq_or_of_lt ha, add_comm]

theorem toNat_cellNibble (k : Byte) : (cellNibble hardware k).toNat = k.toNat % 16 :=
  Nat.and_two_pow_sub_one_eq_mod k.toNat 4

theorem cellNibble_mask (k : Byte) : cellNibble hardware (k &&& 0x0F#8) = cellNibble hardware k := by
  simp [cellNibble, BitVec.and_assoc]

section
variable {k k2 : Byte} {n n1 n2 : Nat}

theorem toNat_cellByte1 (h : n ≤ 4095) :
    (cellByte1 hardware k (BitVec.ofNat 12 n)).toNat = 16 * (k.toNat % 16) + n / 256 := by
  have hnib := toNat_cellNibble k
  have hhigh : ((BitVec.ofNat 12 n >>> 8).setWidth 8).toNat = n / 256 := by
    rw [BitVec.toNat_setWidth, BitVec.toNat_ushiftRight, BitVec.toNat_ofNat, Nat.shiftRight_eq_div_pow]
    omega
  rw [cellByte1, toNat_or_shiftLeft (by omega) (by omega), hhigh, hnib]
  omega

theorem toNat_cellByte2 (n : Nat) : (cellByte2 (BitVec.ofNat 12 n)).toNat = n % 256 := by
  rw [cellByte2, BitVec.toNat_setWidth, BitVec.toNat_ofNat]
  omega

/-- The result of `VQ.CELLD` by arithmetic on the id and the scaled voltage (R80, R115). -/
theorem cellDResult_eq (h : n ≤ 4095) : cellDResult hardware k (BitVec.ofNat 12 n) =
    { rk := BitVec.ofNat 8 (16 * (k.toNat % 16) + n / 256), rk2 := BitVec.ofNat 8 (n % 256),
      rz := BitVec.ofNat 32 (16 * (k.toNat % 16) + n / 256 + 256 * (n % 256)) } := by
  have h1 := toNat_cellByte1 (k := k) h
  have h2 := toNat_cellByte2 n
  have hw1 := BitVec.toNat_setWidth 32 (cellByte1 hardware k (BitVec.ofNat 12 n))
  have hw2 := BitVec.toNat_setWidth 32 (cellByte2 (BitVec.ofNat 12 n))
  simp only [cellDResult, Response.mk.injEq, true_and]
  refine ⟨?_, ?_, ?_⟩ <;> apply BitVec.eq_of_toNat_eq <;> rw [BitVec.toNat_ofNat]
  · rw [toNat_or_shiftLeft (by omega) (by omega)]
    omega
  · omega
  · omega

/-- The word of `VQ.CELLSP` by arithmetic on the id, the count and the scaled voltages (R81, R118). -/
theorem cellSpWord_eq (h1 : n1 ≤ 4095) (h2 : n2 ≤ 4095) :
    cellSpWord hardware k k2 (BitVec.ofNat 12 n1) (BitVec.ofNat 12 n2) =
      BitVec.ofNat 32 (k.toNat % 16 + 16 * (k2.toNat % 16) + 2 ^ 8 * n1 + 2 ^ 20 * n2) := by
  have hid : ((cellNibble hardware k).setWidth 32).toNat = k.toNat % 16 := by
    rw [BitVec.toNat_setWidth, toNat_cellNibble]; omega
  have hcount : ((cellNibble hardware k2).setWidth 32).toNat = k2.toNat % 16 := by
    rw [BitVec.toNat_setWidth, toNat_cellNibble]; omega
  have hs1 : ((BitVec.ofNat 12 n1).setWidth 32).toNat = n1 := by
    rw [BitVec.toNat_setWidth, BitVec.toNat_ofNat]; omega
  have hs2 : ((BitVec.ofNat 12 n2).setWidth 32).toNat = n2 := by
    rw [BitVec.toNat_setWidth, BitVec.toNat_ofNat]; omega
  simp only [cellSpWord, hardware_spCellLayout, BitVec.shiftLeft_zero]
  have h12 := toNat_or_shiftLeft (a := (cellNibble hardware k).setWidth 32)
    (b := (cellNibble hardware k2).setWidth 32) (i := 4) (by omega) (by omega)
  have h123 := toNat_or_shiftLeft (b := (BitVec.ofNat 12 n1).setWidth 32) (i := 8) (h12.trans_lt (by omega)) (by omega)
  apply BitVec.eq_of_toNat_eq
  rw [BitVec.toNat_ofNat, toNat_or_shiftLeft (h123.trans_lt (by omega)) (by omega)]
  omega

theorem vqCellD_eq {fa : Word} (hfin : floatClass hardware fa = .finite)
    (hn : IsRoundAway ((realOf hardware fa).toRat * 500) n) (hle : n ≤ 4095) :
    vqCellD hardware k fa = .ok (cellDResult hardware k (BitVec.ofNat 12 n)) := by
  rw [vqCellD, cellScaled_of_fits hfin hn hle]

theorem vqCellSp_eq {fa fb : Word} (hfa : floatClass hardware fa = .finite)
    (hfb : floatClass hardware fb = .finite) (hn1 : IsRoundAway ((realOf hardware fa).toRat * 500) n1)
    (hle1 : n1 ≤ 4095) (hn2 : IsRoundAway ((realOf hardware fb).toRat * 500) n2) (hle2 : n2 ≤ 4095) :
    vqCellSp hardware k k2 fa fb =
      .ok { rz := cellSpWord hardware k k2 (BitVec.ofNat 12 n1) (BitVec.ofNat 12 n2) } := by
  rw [vqCellSp, cellScaled_of_fits hfa hn1 hle1, cellScaled_of_fits hfb hn2 hle2]

end

theorem vqCellSp_refused {k k2 : Byte} {fa fb : Word}
    (h : cellScaled hardware fa = .error .argumentRange ∨ cellScaled hardware fb = .error .argumentRange) :
    vqCellSp hardware k k2 fa fb = .error .argumentRange := by
  unfold vqCellSp
  cases ha : cellScaled hardware fa with
  | error e => rw [cellScaled_error ha]
  | ok s1 =>
    have hb := h.resolve_left (by simp [ha])
    rw [hb]

/-- Settles O32. -/
theorem cellDPacksIdAndVoltage : Obligations.CellDPacksIdAndVoltage := by
  intro k fa s
  refine ⟨fun n hfin hn hle => ?_, fun h => exec_of_result_argumentRange rfl ?_⟩
  · rw [← cellDResult_eq hle]
    exact exec_of_result_ok rfl (vqCellD_eq hfin hn hle)
  · change vqCellD hardware k fa = .error .argumentRange
    rw [vqCellD, cellScaled_refused h]

/-- Settles O33. -/
theorem cellSpPacksTwoVoltages : Obligations.CellSpPacksTwoVoltages := by
  intro k k2 fa fb s
  refine ⟨fun n1 n2 hfa hfb hn1 hle1 hn2 hle2 => ?_, fun h => exec_of_result_argumentRange rfl (vqCellSp_refused ?_)⟩
  · rw [← cellSpWord_eq hle1 hle2]
    exact exec_of_result_ok rfl (vqCellSp_eq hfa hfb hn1 hle1 hn2 hle2)
  · rcases h with h | h | h | h
    · exact .inl (cellScaled_refused (.inl h))
    · exact .inr (cellScaled_refused (.inl h))
    · exact .inl (cellScaled_refused (.inr h))
    · exact .inr (cellScaled_refused (.inr h))

/-- Settles O34: both packings see an id or count through its nibble, and refuse for a voltage alone. -/
theorem cellIdIsMasked : Obligations.CellIdIsMasked := by
  intro k k2 fa fb s
  refine ⟨?_, ?_, fun n1 hfa hn1 hle1 => ⟨?_, fun n2 hfb hn2 hle2 => ?_⟩⟩
  · simp only [exec, execVqCellD, vqCellD, cellDResult, cellByte1, cellNibble_mask]
  · simp only [exec, execVqCellSp, vqCellSp, cellSpWord, cellNibble_mask]
  · exact ⟨_, rfl, exec_of_result_ok rfl (vqCellD_eq hfa hn1 hle1)⟩
  · exact ⟨_, rfl, exec_of_result_ok rfl (vqCellSp_eq hfa hfb hn1 hle1 hn2 hle2)⟩

end Sys2Proof.QuantizerFamily
end

section
/-! PROOFS. The D frame codec family (41_d_frame_codec.md R133 to R142): the edges of the deframer and what its events
say, which operation raises which error, a frame fed back, and the context token as arithmetic. -/

namespace Sys2Proof.FrameCodecFamily

open Sys2Proof.Machine Sys2Proof.EncodingFamily

/-! ### The context token as arithmetic (R78) -/

theorem toNat_append_eq_add {m n : Nat} (x : BitVec m) (y : BitVec n) :
    (x ++ y).toNat = x.toNat * 2 ^ n + y.toNat := by
  rw [BitVec.toNat_append, ← Nat.shiftLeft_add_eq_or_of_lt y.isLt, Nat.shiftLeft_eq]

theorem extractLsb'_eq_ofNat {n : Nat} (z : BitVec n) (start len : Nat) :
    z.extractLsb' start len = BitVec.ofNat len (z.toNat / 2 ^ start) := by
  rw [BitVec.extractLsb', Nat.shiftRight_eq_div_pow]

/-- Bits 7..4 add nothing to a token. -/
theorem toNat_token (c : Context) : c.token.toNat =
    c.state.code.toNat + 8 * c.slot.toNat + 256 * c.id.toNat + 65536 * c.dlo.toNat + 16777216 * c.dhi.toNat := by
  simp only [Context.token, toNat_append_eq_add, BitVec.ofNat_eq_ofNat, BitVec.toNat_ofNat, Nat.zero_mod]
  omega

/-- The codes that the claims list are the codes of R23. -/
theorem toNat_code_of_mem {st : DfState} {code : Nat}
    (h : (st, code) ∈ [(DfState.waitStart, 0), (.readId, 1), (.readDataLow, 2), (.readDataHigh, 3),
      (.escapePending, 4), (.waitEnd, 5)]) : st.code.toNat = code := by
  cases st <;> simp_all [DfState.code]

/-- Settles O45. -/
theorem getStateReturnsToken : Obligations.GetStateReturnsToken := by
  intro s code hcode
  rw [← toNat_code_of_mem hcode, ← toNat_token, BitVec.ofNat_toNat, BitVec.setWidth_eq]
  exact StateFamily.exec_dfGetState s

theorem contextOfToken_of_code {z : Word} {st : DfState} (h : st.code.toNat = z.toNat % 8) :
    contextOfToken z = some ⟨st, BitVec.ofNat 1 (z.toNat / 8), BitVec.ofNat 8 (z.toNat / 256),
      BitVec.ofNat 8 (z.toNat / 65536), BitVec.ofNat 8 (z.toNat / 16777216)⟩ := by
  have hcode : z.extractLsb' 0 3 = st.code := by
    apply BitVec.eq_of_toNat_eq
    rw [h, BitVec.extractLsb'_toNat, Nat.shiftRight_zero]
  rw [contextOfToken, hcode, dfStateOfCode_code, Option.map_some]
  simp only [extractLsb'_eq_ofNat]
  rfl

theorem exec_dfSetState_of_none {z : Word} (h : contextOfToken z = none) (s : State) :
    exec (.dfSetState z) s = .next ⟨s.ctx, s.inputs, { st := 3 } :: s.responses⟩ := by
  simp only [exec, execDfSetState, h]
  rfl

/-- Settles O46. -/
theorem setStateLoadsToken : Obligations.SetStateLoadsToken := by
  refine fun z s => ⟨fun st hst => ?_, fun hcode => exec_dfSetState_of_none ?_ s⟩
  · exact StateFamily.exec_dfSetState_of_some (contextOfToken_of_code (toNat_code_of_mem hst)) s
  · rwa [contextOfToken_none_iff, BitVec.extractLsb'_toNat, Nat.shiftRight_zero]

/-- Settles O44. -/
theorem dfResetClearsContext : Obligations.DfResetClearsContext := fun _ => ⟨rfl, rfl⟩

/-! ### The edges of the deframer (R133) -/

/-- The value of a frame has the high data byte above the low one (R10). -/
theorem unle16_eq_append (lo hi : Byte) : unle16 lo hi = hi ++ lo := by
  have hlo : (hi ++ lo).extractLsb' 0 8 = lo := BitVec.extractLsb'_append_eq_right
  have hhi : (hi ++ lo).extractLsb' 8 8 = hi := BitVec.extractLsb'_append_eq_left
  rw [← unle16_extract (hi ++ lo), hlo, hhi]

theorem exec_dfFeed (k : Byte) (s : State) :
    exec (.dfFeed k) s = .next ⟨(dFeed hardware s.ctx k).1, s.inputs,
      answer (eventResult (dFeed hardware s.ctx k).2) :: s.responses⟩ := exec_eq (.dfFeed k) s

/-- An edge of the deframer as what `DF.FEED` does (R134). -/
theorem exec_dfFeed_of_edge {c c' : Context} {e : Event} {b : Byte} (h : dFeed hardware c b = (c', e))
    (ins : List Input) (rs : List Response) :
    exec (.dfFeed b) ⟨c, ins, rs⟩ = .next ⟨c', ins, answer (eventResult e) :: rs⟩ := by
  rw [exec_dfFeed, h]

/-- Settles O37, edge by edge in the order of R133. -/
theorem feedFollowsTheFourteenEdges : Obligations.FeedFollowsTheFourteenEdges := by
  intro ins rs sl id lo hi b
  refine ⟨exec_dfFeed_of_edge rfl ins rs,
    fun hb => exec_dfFeed_of_edge ((dFeed_waitStart sl id lo hi b).trans (if_neg hb)) ins rs,
    exec_dfFeed_of_edge rfl ins rs,
    exec_dfFeed_of_edge rfl ins rs,
    fun hb => exec_dfFeed_of_edge ((dFeed_readDataLow sl id lo hi b).trans (if_neg hb)) ins rs,
    exec_dfFeed_of_edge rfl ins rs,
    fun hb => exec_dfFeed_of_edge ((dFeed_readDataHigh sl id lo hi b).trans (if_neg hb)) ins rs,
    exec_dfFeed_of_edge rfl ins rs, exec_dfFeed_of_edge rfl ins rs,
    exec_dfFeed_of_edge rfl ins rs, exec_dfFeed_of_edge rfl ins rs,
    fun hmark hesc => exec_dfFeed_of_edge (dFeed_escape_bad sl id lo hi b hmark hesc) ins rs,
    ?_, fun hb => exec_dfFeed_of_edge ((dFeed_waitEnd sl id lo hi b).trans (if_neg hb)) ins rs⟩
  rw [← unle16_eq_append]
  exact exec_dfFeed_of_edge rfl ins rs

/-! ### What the deframer reports for one byte (R135, R136) -/

/-- The two situations of R136. -/
def IsFramingFault (c : Context) (b : Byte) : Prop :=
  (c.state = .escapePending ∧ b ≠ 0x3E#8 ∧ b ≠ 0x3D#8) ∨ (c.state = .waitEnd ∧ b ≠ 0x5E#8)

/-- The end marker where it is expected (R135). -/
def IsFrameEnd (c : Context) (b : Byte) : Prop := c.state = .waitEnd ∧ b = 0x5E#8

theorem not_isFrameEnd_of_isFramingFault {c : Context} {b : Byte} (h : IsFramingFault c b) : ¬ IsFrameEnd c b := by
  rintro ⟨hst, hb⟩
  obtain ⟨hst', -⟩ | ⟨-, hb'⟩ := h
  · cases hst.symm.trans hst'
  · exact hb' hb

theorem dFeed_of_isFramingFault {c : Context} {b : Byte} (h : IsFramingFault c b) :
    dFeed hardware c b = (Context.clear, .framingError) := by
  obtain ⟨st, sl, id, lo, hi⟩ := c
  obtain ⟨rfl, hmark, hesc⟩ | ⟨rfl, hb⟩ := h
  · exact dFeed_escape_bad sl id lo hi b hmark hesc
  · rw [dFeed_waitEnd, if_neg hb]

theorem dFeed_of_isFrameEnd {c : Context} {b : Byte} (h : IsFrameEnd c b) :
    dFeed hardware c b = (Context.clear, .frame c.id (c.dhi ++ c.dlo)) := by
  obtain ⟨st, sl, id, lo, hi⟩ := c
  obtain ⟨rfl, rfl⟩ := h
  rw [← unle16_eq_append]
  rfl

/-- Every byte outside the two situations and the end marker is answered with nothing. -/
theorem dFeed_event_none {c : Context} {b : Byte} (hfault : ¬ IsFramingFault c b) (hend : ¬ IsFrameEnd c b) :
    (dFeed hardware c b).2 = .none := by
  obtain ⟨st, sl, id, lo, hi⟩ := c
  cases st with
  | waitStart => rw [dFeed_waitStart]; split <;> rfl
  | readId => rfl
  | readDataLow => rw [dFeed_readDataLow]; split <;> rfl
  | readDataHigh => rw [dFeed_readDataHigh]; split <;> rfl
  | escapePending =>
    cases hu : unescape hardware b with
    | none =>
      refine absurd (.inl ⟨rfl, ?_, ?_⟩) hfault
      all_goals
        rintro rfl
        cases hu
    | some u =>
      obtain rfl | rfl := BitVec.eq_zero_or_eq_one sl
      · rw [StateFamily.dFeed_escape_low hu]
      · rw [StateFamily.dFeed_escape_high hu]
  | waitEnd => exact absurd (.inr ⟨rfl, fun hb => hend ⟨rfl, hb⟩⟩) hfault

/-- What `DF.FEED` can report, and when: a framing error, a frame, or nothing. -/
theorem dFeed_event_cases (c : Context) (b : Byte) :
    (IsFramingFault c b ∧ ¬ IsFrameEnd c b ∧ dFeed hardware c b = (Context.clear, .framingError)) ∨
    (IsFrameEnd c b ∧ ¬ IsFramingFault c b ∧
      dFeed hardware c b = (Context.clear, .frame c.id (c.dhi ++ c.dlo))) ∨
    (¬ IsFramingFault c b ∧ ¬ IsFrameEnd c b ∧ (dFeed hardware c b).2 = .none) := by
  by_cases hfault : IsFramingFault c b
  · exact .inl ⟨hfault, not_isFrameEnd_of_isFramingFault hfault, dFeed_of_isFramingFault hfault⟩
  · by_cases hend : IsFrameEnd c b
    · exact .inr (.inl ⟨hend, hfault, dFeed_of_isFrameEnd hend⟩)
    · exact .inr (.inr ⟨hfault, hend, dFeed_event_none hfault hend⟩)

/-! ### Which operation raises which error (R136, R218) -/

section
variable {fa fb z : Word} {x y mul div : Half} {k k2 : Byte} {pk : ByteVec} {e : Error}

theorem vqSplit_error (h : vqSplit hardware fa mul = .error e) : e = .argumentRange := by
  simp only [vqSplit] at h
  split_ifs at h <;> cases h <;> rfl

theorem vqJoin_error (h : vqJoin hardware x y mul = .error e) : e = .argumentRange := by
  simp only [vqJoin] at h
  split_ifs at h
  cases h
  rfl

theorem vqQuant_error (h : vqQuant hardware fa mul div k2 = .error e) : e = .argumentRange := by
  simp only [vqQuant] at h
  split_ifs at h
  · cases h; rfl
  · cases h; rfl
  · split at h
    · cases h; rfl
    · split_ifs at h
      cases h
      rfl

theorem vqDequant_error (h : vqDequant hardware z mul div k2 = .error e) : e = .argumentRange := by
  simp only [vqDequant] at h
  split_ifs at h
  · cases h; rfl
  · split at h <;> cases h
    rfl

theorem vqCellD_error (h : vqCellD hardware k fa = .error e) : e = .argumentRange := by
  simp only [vqCellD] at h
  split at h <;> cases h
  next hs => exact QuantizerFamily.cellScaled_error hs

theorem vqCellSp_error (h : vqCellSp hardware k k2 fa fb = .error e) : e = .argumentRange := by
  simp only [vqCellSp] at h
  split at h
  next hs =>
    cases h
    exact QuantizerFamily.cellScaled_error hs
  · split at h <;> cases h
    next hs => exact QuantizerFamily.cellScaled_error hs

theorem eventResult_error {ev : Event} (h : eventResult ev = .error e) : e = .framing := by
  cases ev <;> cases h
  rfl

theorem ckSum_error (h : ckSum hardware pk k = .error e) : e = .argumentRange := by
  simp only [ckSum] at h
  split_ifs at h
  cases h
  rfl

theorem spDecode_error (h : spDecode hardware pk = .error e) : e = .checksum := by
  simp only [spDecode] at h
  split_ifs at h
  cases h
  rfl

end

/-- An operation raises no error but the one that its row of R218 lists. -/
theorem exists_row_of_result_error {i : Instr} {c : Context} {e : Error} (h : result i c = .error e) :
    ∃ row ∈ opTable, row.op = (encode i).op ∧ row.raises = some e := by
  cases i with
  | vqSplit fa mul =>
    obtain rfl := vqSplit_error h
    exact ⟨opTable[0], by decide, rfl, rfl⟩
  | vqJoin x y mul =>
    obtain rfl := vqJoin_error h
    exact ⟨opTable[1], by decide, rfl, rfl⟩
  | vqQuant fa mul div k2 =>
    obtain rfl := vqQuant_error h
    exact ⟨opTable[3], by decide, rfl, rfl⟩
  | vqDequant z mul div k2 =>
    obtain rfl := vqDequant_error h
    exact ⟨opTable[4], by decide, rfl, rfl⟩
  | vqCellD k fa =>
    obtain rfl := vqCellD_error h
    exact ⟨opTable[5], by decide, rfl, rfl⟩
  | vqCellSp k k2 fa fb =>
    obtain rfl := vqCellSp_error h
    exact ⟨opTable[6], by decide, rfl, rfl⟩
  | dfFeed k =>
    obtain rfl := eventResult_error h
    exact ⟨opTable[8], by decide, rfl, rfl⟩
  | dfSetState z =>
    simp only [result] at h
    split_ifs at h
    cases h
    exact ⟨opTable[11], by decide, rfl, rfl⟩
  | ckSum pk k =>
    obtain rfl := ckSum_error h
    exact ⟨opTable[12], by decide, rfl, rfl⟩
  | spDecode pk =>
    obtain rfl := spDecode_error h
    exact ⟨opTable[17], by decide, rfl, rfl⟩
  | _ => cases h

theorem opTable_raises_framing : ∀ row ∈ opTable, row.raises = some .framing → row.op = 0x11#8 := by decide

theorem eq_dfFeed_of_op {i : Instr} (h : (encode i).op = 0x11#8) : ∃ k, i = .dfFeed k := by
  cases i with
  | dfFeed k => exact ⟨k, rfl⟩
  | _ => simp [encode, Request.blank] at h

theorem eq_dfFeed_of_result_framing {i : Instr} {c : Context} (h : result i c = .error .framing) :
    ∃ k, i = .dfFeed k := by
  obtain ⟨row, hrow, hop, hraises⟩ := exists_row_of_result_error h
  exact eq_dfFeed_of_op (hop.symm.trans (opTable_raises_framing row hrow hraises))

/-- Every error but the framing error leaves the context as it was (R205). -/
theorem contextAfter_of_result_error {i : Instr} {c : Context} {e : Error} (h : result i c = .error e)
    (he : e ≠ .framing) : StateFamily.contextAfter i c = c := by
  cases i with
  | dfFeed k => exact absurd (eventResult_error h) he
  | dfReset => cases h
  | dfSetState z =>
    simp only [result] at h
    split_ifs at h with hz
    rw [StateFamily.contextAfter, Option.not_isSome_iff_eq_none.1 hz, Option.getD_none]
  | _ => rfl

theorem code_eq_one_iff (e : Error) : e.code = 1 ↔ e = .framing := by cases e <;> decide

theorem result_ok_st {i : Instr} {c : Context} {r : Response} (h : result i c = .ok r) : r.st = 0 := by
  obtain ⟨-, -, -, hst, -⟩ := exists_row_of_result_ok h
  exact hst

/-- A status that is not `OK` is the code of an error that the operation raised. -/
theorem exists_error_of_st_ne_zero {i : Instr} {c : Context} (h : (answer (result i c)).st ≠ 0) :
    ∃ e, result i c = .error e ∧ (answer (result i c)).st = e.code := by
  cases hres : result i c with
  | ok r => exact absurd (by rw [hres, answer_ok, result_ok_st hres]) h
  | error e => exact ⟨e, rfl, rfl⟩

theorem st_eq_one_iff (i : Instr) (c : Context) :
    (answer (result i c)).st = 1 ↔ result i c = .error .framing := by
  constructor
  · intro hst
    obtain ⟨e, hres, hcode⟩ := exists_error_of_st_ne_zero (by rw [hst]; decide)
    rw [hres, (code_eq_one_iff e).1 (hcode.symm.trans hst)]
  · intro hres
    rw [hres]
    rfl

/-- Settles O38: `DF.FEED` by what it can report, the other operations by the errors they raise. -/
theorem framingErrorHasExactlyTwoCauses : Obligations.FramingErrorHasExactlyTwoCauses := by
  refine ⟨fun k s => ⟨_, _, exec_dfFeed k s, rfl, rfl, ?_⟩, fun i s t rsp hexec hrsp => ?_⟩
  · change (_ ↔ IsFramingFault s.ctx k) ∧ _
    obtain ⟨hfault, -, h⟩ | ⟨-, hfault, h⟩ | ⟨hfault, -, h⟩ := dFeed_event_cases s.ctx k
    · rw [h]
      exact ⟨iff_of_true rfl hfault, fun _ => ⟨rfl, rfl⟩, fun hst => absurd rfl hst⟩
    all_goals
      have hok : (0 : BitVec 3) ≠ 1 := by decide
      rw [h]
      exact ⟨iff_of_false hok hfault, fun hst => absurd hst hok, fun _ => rfl⟩
  · obtain rfl := exec_response hexec hrsp
    rw [st_eq_one_iff, StateFamily.exec_ctx hexec]
    refine ⟨eq_dfFeed_of_result_framing, fun hst hne => ?_⟩
    obtain ⟨e, hres, -⟩ := exists_error_of_st_ne_zero hst
    exact contextAfter_of_result_error hres fun he => hne ((st_eq_one_iff i s.ctx).2 (he ▸ hres))

/-! ### The frame event (R135) -/

theorem eq_dfFeed_of_event {i : Instr} {c : Context} (h : (answer (result i c)).ev = 1) : ∃ k, i = .dfFeed k := by
  cases hres : result i c with
  | error e =>
    rw [hres] at h
    cases h
  | ok r =>
    rw [hres, answer_ok] at h
    refine eq_dfFeed_of_op (by_contra fun hop => ?_)
    rw [result_ok_ev_eq_zero hres hop] at h
    cases h

/-- Settles O39. -/
theorem frameEventOnlyAtEndMarker : Obligations.FrameEventOnlyAtEndMarker := by
  refine ⟨fun i s t rsp hexec hrsp hev => ?_, fun k s => ⟨_, _, exec_dfFeed k s, rfl, rfl, ?_⟩⟩
  · exact eq_dfFeed_of_event (exec_response hexec hrsp ▸ hev)
  · change (_ ↔ IsFrameEnd s.ctx k) ∧ _
    obtain ⟨-, hend, h⟩ | ⟨hend, -, h⟩ | ⟨-, hend, h⟩ := dFeed_event_cases s.ctx k
    · rw [h]
      exact ⟨iff_of_false (by decide) hend, fun hev => absurd hev (by decide)⟩
    · rw [h]
      exact ⟨iff_of_true rfl hend, fun _ => ⟨rfl, rfl⟩⟩
    · rw [h]
      exact ⟨iff_of_false (by decide) hend, fun hev => absurd hev (by decide)⟩

/-! ### A frame fed back (R137) -/

/-- Reading back as many bytes as were packed gives them back (R42). -/
theorem take_vecBytes_vecOfBytes {bs : List Byte} (h : bs.length ≤ 8) :
    (vecBytes (vecOfBytes bs)).take bs.length = bs := by
  have hbytes : vecBytes (vecOfBytes bs) = (List.range 8).map fun i => bs.getD i 0 := by
    have hread (i : Nat) (hi : i < 8) := byteAt_vecOfBytes bs i hi
    simp [vecBytes, hread, List.range_succ]
  rw [hbytes]
  apply List.ext_getElem
  · simpa using h
  · intro i hi hlen
    simp [hlen]

/-- In `WAIT_START` the registers say nothing about what follows. -/
theorem dFeed_of_waitStart {c : Context} (h : c.state = .waitStart) (b : Byte) :
    dFeed hardware c b = dFeed hardware Context.clear b := by
  obtain ⟨st, sl, id, lo, hi⟩ := c
  cases h
  rfl

theorem feed_of_waitStart {c : Context} (h : c.state = .waitStart) {bs : List Byte} (hbs : bs ≠ []) :
    StateFamily.feedContext c bs = StateFamily.feedContext Context.clear bs ∧
      feedAnswers c bs = feedAnswers Context.clear bs := by
  obtain ⟨b, bs, rfl⟩ := List.exists_cons_of_ne_nil hbs
  simp only [StateFamily.feedContext_cons, feedAnswers_cons, dFeed_of_waitStart h, and_self]

/-- Settles O40: the bytes read from the response are the frame, and a frame fed from `WAIT_START` is delivered. -/
theorem deframeInvertsFrame : Obligations.DeframeInvertsFrame := by
  refine fun id v s => ⟨_, exec_dfEncode id v s, fun c rest rs bs hc hbs => ?_⟩
  have hframe : bs = frame hardware id v := by
    rw [hbs, toNat_frame_length, take_vecBytes_vecOfBytes ((frame_length_le id v).trans (by decide))]
  obtain ⟨hctx, hans⟩ := feed_of_waitStart hc (bs := frame hardware id v) (List.cons_ne_nil _ _)
  rw [hframe, run_feedAll_eq, hctx, hans, feedContext_frame, feedAnswers_frame, List.reverse_append,
    List.reverse_replicate]
  rfl

/-! ### A shared marker (R138 (b), D17) -/

/-- Data bytes other than the escape byte are taken as they come, a raw marker among them (R139). -/
theorem feed_raw_frame {b0 b1 : Byte} (h0 : b0 ≠ 0x5D#8) (h1 : b1 ≠ 0x5D#8) (id : Byte) :
    StateFamily.feedContext Context.clear [0x5E#8, id, b0, b1, 0x5E#8] = Context.clear ∧
      feedAnswers Context.clear [0x5E#8, id, b0, b1, 0x5E#8] =
        List.replicate 4 ({} : Response) ++ [{ ev := 1, rk := id, rx := b1 ++ b0 }] := by
  simp [Context.clear, h0, h1, eventResult, unle16_eq_append, List.replicate]

/-- Settles O42: the first frame ends with the shared marker, the bytes of the second are idle bytes, and the last
marker begins a frame. -/
theorem sharedMarkerLosesSecondFrame : Obligations.SharedMarkerLosesSecondFrame := by
  intro id b0 b1 id' b0' b1' rest rs h0 h1 hid' h0' h1'
  obtain ⟨hctx, hans⟩ := feed_raw_frame h0 h1 id
  obtain ⟨hctx', hans'⟩ := feed_idle (bs := [id', b0', b1']) (by simpa using ⟨hid', h0', h1'⟩)
  have hbytes : [0x5E#8, id, b0, b1, 0x5E#8, id', b0', b1', 0x5E#8] =
      [0x5E#8, id, b0, b1, 0x5E#8] ++ ([id', b0', b1'] ++ [0x5E#8]) := rfl
  have hrun := run_feedAll_eq Context.clear [0x5E#8, id, b0, b1, 0x5E#8, id', b0', b1', 0x5E#8] rest rs
  rw [hbytes, StateFamily.feedContext_append, feedAnswers_append, hctx, hans, StateFamily.feedContext_append,
    feedAnswers_append, hctx', hans', ← hbytes] at hrun
  exact hrun

end Sys2Proof.FrameCodecFamily
end

section
/-! PROOFS. The checksum engine family (42_checksum_engine.md R160 to R167): the fold of a byte sequence is fixed by
the integer sum of its bytes, and every claim of the family is read off that sum. -/

namespace Sys2Proof.ChecksumFamily

open Sys2Proof.Machine

/-! ### One step of the fold (R160) -/

theorem toNat_and_0xFF (t : BitVec 16) : (t &&& 0xFF#16).toNat = t.toNat % 256 := by
  rw [BitVec.toNat_and]
  exact Nat.and_two_pow_sub_one_eq_mod t.toNat 8

/-- The first carry is added back, and the second half of the five steps finds none (C9). -/
theorem toNat_fold1 (crc b : Byte) : (fold1 crc b).toNat =
    if crc.toNat + b.toNat ≤ 255 then crc.toNat + b.toNat else crc.toNat + b.toNat - 255 := by
  have hcrc := crc.isLt
  have hb := b.isLt
  simp only [fold1, BitVec.ofNat_eq_ofNat, BitVec.toNat_setWidth, BitVec.toNat_add, BitVec.toNat_ushiftRight,
    toNat_and_0xFF, Nat.shiftRight_eq_div_pow]
  split <;> omega

/-- Settles O48. -/
theorem foldStepIsEndAroundCarry : Obligations.FoldStepIsEndAroundCarry := toNat_fold1

/-! ### A byte that folds an integer (R165 (d)) -/

/-- `c` is what the integer `n` folds to: the same residue by 255, and of the two bytes with residue 0 it is `0x00`
for 0 alone. -/
def FoldsTo (n : Nat) (c : Byte) : Prop := c.toNat ≡ n [MOD 255] ∧ (c.toNat = 0 ↔ n = 0)

theorem foldsTo_self (c : Byte) : FoldsTo c.toNat c := ⟨rfl, Iff.rfl⟩

theorem FoldsTo.unique {n : Nat} {c d : Byte} (hc : FoldsTo n c) (hd : FoldsTo n d) : c = d := by
  obtain ⟨hcmod, hczero⟩ := hc
  obtain ⟨hdmod, hdzero⟩ := hd
  have hmod : c.toNat % 255 = d.toNat % 255 := hcmod.trans hdmod.symm
  apply BitVec.eq_of_toNat_eq
  omega

theorem FoldsTo.fold1 {m n : Nat} {c d : Byte} (hc : FoldsTo m c) (hd : FoldsTo n d) :
    FoldsTo (m + n) (fold1 c d) := by
  obtain ⟨hcmod, hczero⟩ := hc
  obtain ⟨hdmod, hdzero⟩ := hd
  have hsum : (c.toNat + d.toNat) % 255 = (m + n) % 255 := hcmod.add hdmod
  rw [FoldsTo, toNat_fold1, Nat.ModEq]
  split <;> omega

theorem FoldsTo.toNat_eq {n : Nat} {c : Byte} (h : FoldsTo n c) :
    c.toNat = if n = 0 then 0 else if n % 255 = 0 then 255 else n % 255 := by
  obtain ⟨hmod, hzero⟩ := h
  rw [Nat.ModEq] at hmod
  split_ifs <;> omega

theorem FoldsTo.eq_zero_iff {n : Nat} {c : Byte} (h : FoldsTo n c) : c = 0 ↔ n = 0 := by
  rw [← h.2, ← BitVec.toNat_inj]
  rfl

theorem fold1_comm (a b : Byte) : fold1 a b = fold1 b a :=
  FoldsTo.unique ((foldsTo_self a).fold1 (foldsTo_self b))
    (Nat.add_comm _ _ ▸ (foldsTo_self b).fold1 (foldsTo_self a))

theorem fold1_assoc (a b c : Byte) : fold1 (fold1 a b) c = fold1 a (fold1 b c) :=
  FoldsTo.unique (((foldsTo_self a).fold1 (foldsTo_self b)).fold1 (foldsTo_self c))
    (Nat.add_assoc _ _ _ ▸ (foldsTo_self a).fold1 ((foldsTo_self b).fold1 (foldsTo_self c)))

theorem fold1_zero (c : Byte) : fold1 c 0x00 = c :=
  ((foldsTo_self c).fold1 (foldsTo_self 0x00)).unique (foldsTo_self c)

theorem fold1_eq_zero_iff (c b : Byte) : fold1 c b = 0 ↔ c = 0 ∧ b = 0 := by
  rw [((foldsTo_self c).fold1 (foldsTo_self b)).eq_zero_iff, Nat.add_eq_zero_iff,
    ← (foldsTo_self c).eq_zero_iff, ← (foldsTo_self b).eq_zero_iff]

theorem fold1_0xFF_of_ne_zero {c : Byte} (h : c ≠ 0) : fold1 c 0xFF = c := by
  have hpos : c.toNat ≠ 0 := mt (foldsTo_self c).eq_zero_iff.2 h
  refine ((foldsTo_self c).fold1 (foldsTo_self 0xFF)).unique ⟨?_, by omega⟩
  exact (Nat.add_modEq_right).symm

theorem fold1_not_self (c : Byte) : fold1 c (~~~c) = 0xFF := by
  apply BitVec.eq_of_toNat_eq
  have hc := c.isLt
  rw [toNat_fold1, BitVec.toNat_not, if_pos (by omega)]
  change _ = 255
  omega

/-- Two bytes that fold alike with a third have the same residue by 255. -/
theorem modEq_of_fold1_eq {a b r : Byte} (h : fold1 a r = fold1 b r) : a.toNat ≡ b.toNat [MOD 255] := by
  obtain ⟨ha, -⟩ := (foldsTo_self a).fold1 (foldsTo_self r)
  obtain ⟨hb, -⟩ := (foldsTo_self b).fold1 (foldsTo_self r)
  exact Nat.ModEq.add_right_cancel' r.toNat (ha.symm.trans (h ▸ hb))

/-! ### The fold of a sequence (R161, R165) -/

/-- The integer sum of a byte sequence. -/
def byteSum (p : List Byte) : Nat := (p.map BitVec.toNat).sum

theorem byteSum_cons (b : Byte) (p : List Byte) : byteSum (b :: p) = b.toNat + byteSum p := by simp [byteSum]

theorem byteSum_eq_zero_iff (p : List Byte) : byteSum p = 0 ↔ ∀ b ∈ p, b = 0 := by
  simp [byteSum, List.sum_eq_zero_iff, ← BitVec.toNat_inj]

theorem foldsTo_foldl {n : Nat} {c : Byte} (h : FoldsTo n c) (p : List Byte) :
    FoldsTo (n + byteSum p) (p.foldl fold1 c) := by
  induction p generalizing n c with
  | nil => exact h
  | cons b p ih =>
    rw [byteSum_cons, ← Nat.add_assoc]
    exact ih (h.fold1 (foldsTo_self b))

/-- The fold of a sequence is what the sum of its bytes folds to. -/
theorem foldsTo_foldSeq (p : List Byte) : FoldsTo (byteSum p) (foldSeq hardware p) := by
  have h := foldsTo_foldl (foldsTo_self 0x00#8) p
  rwa [BitVec.toNat_ofNat, Nat.zero_mod, Nat.zero_add] at h

theorem toNat_foldSeq (p : List Byte) : (foldSeq hardware p).toNat = foldOfSum p := (foldsTo_foldSeq p).toNat_eq

theorem foldSeq_eq_zero_iff (p : List Byte) : foldSeq hardware p = 0 ↔ ∀ b ∈ p, b = 0 :=
  (foldsTo_foldSeq p).eq_zero_iff.trans (byteSum_eq_zero_iff p)

theorem foldSeq_perm {p q : List Byte} (h : p.Perm q) : foldSeq hardware p = foldSeq hardware q := by
  have hsum : byteSum p = byteSum q := (h.map _).sum_eq
  exact (foldsTo_foldSeq p).unique (hsum ▸ foldsTo_foldSeq q)

theorem foldSeq_concat (p : List Byte) (b : Byte) :
    foldSeq hardware (p ++ [b]) = fold1 (foldSeq hardware p) b := List.foldl_append

theorem foldSeq_cons (b : Byte) (p : List Byte) : foldSeq hardware (b :: p) = fold1 b (foldSeq hardware p) := by
  rw [foldSeq_perm (List.perm_append_singleton b p).symm, foldSeq_concat, fold1_comm]

/-- Replacing one byte of a sequence replaces its summand in the fold. -/
theorem foldSeq_set {p : List Byte} {i : Nat} (hi : i < p.length) (b : Byte) :
    foldSeq hardware (p.set i b) = fold1 b (foldSeq hardware (p.eraseIdx i)) := by
  rw [foldSeq_perm (List.set_perm_cons_eraseIdx hi b), foldSeq_cons]

/-- A sequence closed by the complement of its fold folds to `0xFF`. -/
theorem foldSeq_concat_not (p : List Byte) : foldSeq hardware (p ++ [~~~(foldSeq hardware p)]) = 0xFF := by
  rw [foldSeq_concat, fold1_not_self]

/-- Settles O49. -/
theorem foldAlgebra : Obligations.FoldAlgebra :=
  ⟨⟨fold1_comm, fold1_assoc, fun _ _ => foldSeq_perm⟩,
    ⟨fold1_zero, rfl, fun _ => fold1_0xFF_of_ne_zero⟩,
    ⟨fold1_eq_zero_iff, foldSeq_eq_zero_iff⟩,
    toNat_foldSeq,
    ⟨fold1_not_self, foldSeq_concat_not⟩⟩

/-! ### The two operations (R162 to R164) -/

/-- Settles O50. -/
theorem ckSumFoldsFirstBytes : Obligations.CkSumFoldsFirstBytes := by
  refine fun pk k s => ⟨fun hk => ⟨_, toNat_foldSeq _, ?_⟩, fun hk => ?_⟩
  · exact QuantizerFamily.exec_of_result_ok rfl (if_neg (Nat.not_lt.2 hk))
  · exact QuantizerFamily.exec_of_result_argumentRange rfl (if_pos hk)

/-- The checked bytes of a packet are all but its type byte (D22). -/
theorem verifyFold_eq {p : List Byte} (hp : p.length = 8) :
    verifyFold hardware p = foldSeq hardware (p.drop 1) := by
  rw [verifyFold, byteRange, hardware_verifyFirst, hardware_verifyLast, List.take_of_length_le hp.le]

theorem verify_eq_true_iff (p : List Byte) : verify hardware p = true ↔ verifyFold hardware p = 0xFF :=
  beq_iff_eq

theorem ckVerify_eq {pk : ByteVec} {f : Byte} (h : verifyFold hardware (vecBytes pk) = f) :
    ckVerify hardware pk = .ok { rk := f, rk2 := if f = 0xFF then 1 else 0 } := by
  simp only [ckVerify, verify_eq_true_iff, h]

theorem exec_ckVerify {pk : ByteVec} {f : Byte} (h : verifyFold hardware (vecBytes pk) = f) (s : State) :
    exec (.ckVerify pk) s =
      .next ⟨s.ctx, s.inputs, { rk := f, rk2 := if f = 0xFF then 1 else 0 } :: s.responses⟩ :=
  QuantizerFamily.exec_of_result_ok rfl (ckVerify_eq h)

/-- Settles O51. -/
theorem ckVerifyFoldsBytesOneToSeven : Obligations.CkVerifyFoldsBytesOneToSeven := by
  intro pk s
  refine ⟨_, toNat_foldSeq _, (exec_ckVerify (verifyFold_eq (vecBytes_length pk)) s).trans ?_⟩
  simp only [← BitVec.toNat_inj]
  rfl

/-! ### The check of a built packet (R166) -/

/-- Bytes 1 to 6 of a packet: id and value, little-endian. -/
def packFields (id : Half) (value : Word) : List Byte := le16 id ++ le32 value

theorem pack_eq (type : Byte) (id : Half) (value : Word) : pack hardware type id value =
    (type :: packFields id value) ++ [~~~(foldSeq hardware (type :: packFields id value))] := rfl

theorem vecBytes_pack (type : Byte) (id : Half) (value : Word) :
    vecBytes (vecOfBytes (pack hardware type id value)) = pack hardware type id value :=
  vecBytes_vecOfBytes _ rfl

theorem extractLsb'_eq_zero_iff {w : Nat} (v : BitVec w) (start : Nat) :
    v.extractLsb' start 8 = 0 ↔ v.toNat / 2 ^ start % 256 = 0 := by
  rw [← BitVec.toNat_inj, BitVec.extractLsb'_toNat, Nat.shiftRight_eq_div_pow]
  rfl

theorem le16_eq_zero_iff (id : Half) : (∀ b ∈ le16 id, b = 0) ↔ id = 0 := by
  have hid := id.isLt
  have hzero : id = 0 ↔ id.toNat = 0 := BitVec.toNat_inj.symm
  simp only [le16, List.forall_mem_cons, List.not_mem_nil, false_implies, implies_true, and_true,
    extractLsb'_eq_zero_iff, hzero]
  omega

theorem le32_eq_zero_iff (value : Word) : (∀ b ∈ le32 value, b = 0) ↔ value = 0 := by
  have hvalue := value.isLt
  have hzero : value = 0 ↔ value.toNat = 0 := BitVec.toNat_inj.symm
  simp only [le32, List.forall_mem_cons, List.not_mem_nil, false_implies, implies_true, and_true,
    extractLsb'_eq_zero_iff, hzero]
  omega

theorem foldSeq_packFields_eq_zero_iff (id : Half) (value : Word) :
    foldSeq hardware (packFields id value) = 0 ↔ id = 0 ∧ value = 0 := by
  rw [foldSeq_eq_zero_iff, packFields, List.forall_mem_append, le16_eq_zero_iff, le32_eq_zero_iff]

/-- The type byte is in the sum that the checksum byte complements, and not in the sum that is checked. -/
theorem verifyFold_pack (type : Byte) (id : Half) (value : Word) : verifyFold hardware (pack hardware type id value) =
    fold1 (foldSeq hardware (packFields id value)) (~~~(fold1 type (foldSeq hardware (packFields id value)))) := by
  rw [verifyFold_eq rfl, pack_eq, foldSeq_cons, List.cons_append, List.drop_one, List.tail_cons, foldSeq_concat]

/-- What remains of the sum without the type is minus the type, by residue: its complement, unless that is one of the
two bytes with residue 0. -/
theorem fold1_not_fold1 {type : Byte} (h0 : type ≠ 0x00) (hFF : type ≠ 0xFF) (r : Byte) :
    fold1 r (~~~(fold1 type r)) = ~~~type := by
  have htype := type.isLt
  have hr := r.isLt
  have hne0 : type.toNat ≠ 0 := fun h => h0 (BitVec.eq_of_toNat_eq h)
  have hne255 : type.toNat ≠ 255 := fun h => hFF (BitVec.eq_of_toNat_eq h)
  apply BitVec.eq_of_toNat_eq
  simp only [toNat_fold1, BitVec.toNat_not]
  split_ifs <;> omega

theorem verifyFold_pack_0x00 (id : Half) (value : Word) :
    verifyFold hardware (pack hardware 0x00 id value) = 0xFF := by
  rw [verifyFold_pack, fold1_comm 0x00, fold1_zero, fold1_not_self]

theorem verifyFold_pack_0xFF {id : Half} {value : Word} (h : ¬ (id = 0 ∧ value = 0)) :
    verifyFold hardware (pack hardware 0xFF id value) = 0xFF := by
  rw [verifyFold_pack, fold1_comm 0xFF, fold1_0xFF_of_ne_zero (mt (foldSeq_packFields_eq_zero_iff id value).1 h),
    fold1_not_self]

theorem verifyFold_pack_of_ne {type : Byte} (h0 : type ≠ 0x00) (hFF : type ≠ 0xFF) (id : Half) (value : Word) :
    verifyFold hardware (pack hardware type id value) = ~~~type := by
  rw [verifyFold_pack, fold1_not_fold1 h0 hFF]

/-- With the fold taken over all eight bytes every built packet is accepted. -/
theorem verify_pack_of_verifyFirst_zero (type : Byte) (id : Half) (value : Word) :
    verify { hardware with verifyFirst := 0 } (pack hardware type id value) = true :=
  beq_iff_eq.2 (foldSeq_concat_not (type :: packFields id value))

theorem exec_spEncode (type : Byte) (id : Half) (value : Word) (s : State) : exec (.spEncode type id value) s =
    .next ⟨s.ctx, s.inputs, { rpk := vecOfBytes (pack hardware type id value), rlen := 8 } :: s.responses⟩ :=
  QuantizerFamily.exec_of_result_ok rfl rfl

/-- Settles O52. -/
theorem verifyOfBuiltPackets : Obligations.VerifyOfBuiltPackets := by
  intro type id value s
  refine ⟨_, exec_spEncode type id value s, ?_⟩
  have hcheck {f : Byte} (h : verifyFold hardware (pack hardware type id value) = f) :=
    exec_ckVerify ((congrArg _ (vecBytes_pack type id value)).trans h) s
  refine ⟨?_, ?_, ?_, fun h0 hFF => ?_, ?_⟩
  · rintro rfl
    exact hcheck (verifyFold_pack_0x00 id value)
  · rintro rfl hne
    exact hcheck (verifyFold_pack_0xFF hne)
  · rintro rfl ⟨rfl, rfl⟩
    exact hcheck rfl
  · have hne : ~~~type ≠ 0xFF := fun h => h0 (BitVec.not_inj.1 h)
    exact (hcheck (verifyFold_pack_of_ne h0 hFF id value)).trans (by rw [if_neg hne])
  · rw [vecBytes_pack]
    exact verify_pack_of_verifyFirst_zero type id value

/-! ### What the check detects (R167) -/

theorem getElem_vecBytes (v : ByteVec) {i : Nat} (hi : i < (vecBytes v).length) : (vecBytes v)[i] = byteAt v i := by
  rw [vecBytes_length] at hi
  interval_cases i <;> rfl

/-- Bit `n` lies in byte `n / 8` and in no other. -/
theorem byteAt_bit {n i : Nat} (hn : n < 64) :
    byteAt (1#64 <<< n) i = if n / 8 = i then 1#8 <<< (n % 8) else 0#8 := by
  rw [byteAt, ← BitVec.twoPow_eq, ← BitVec.twoPow_eq]
  apply BitVec.eq_of_getLsbD_eq
  intro j hj
  rw [BitVec.getLsbD_extractLsb', BitVec.getLsbD_twoPow]
  split
  next h =>
    have hplace : j = n % 8 ↔ n = 8 * i + j := by omega
    simpa [hn, hj, eq_comm] using hplace
  next h =>
    have hne : n ≠ 8 * i + j := by omega
    simp [hne]

theorem byteAt_xor_bit (v : ByteVec) {n i : Nat} (hn : n < 64) :
    byteAt (v ^^^ (1#64 <<< n)) i = if n / 8 = i then byteAt v i ^^^ (1#8 <<< (n % 8)) else byteAt v i := by
  have hxor : byteAt (v ^^^ (1#64 <<< n)) i = byteAt v i ^^^ byteAt (1#64 <<< n) i := BitVec.extractLsb'_xor
  rw [hxor, byteAt_bit hn]
  split
  · rfl
  · exact BitVec.xor_zero

theorem vecBytes_xor_bit (v : ByteVec) {n : Nat} (hn : n < 64) :
    vecBytes (v ^^^ (1#64 <<< n)) = (vecBytes v).set (n / 8) (byteAt v (n / 8) ^^^ (1#8 <<< (n % 8))) := by
  apply List.ext_getElem
  · rw [List.length_set, vecBytes_length, vecBytes_length]
  · intro i h1 h2
    rw [List.getElem_set, getElem_vecBytes, getElem_vecBytes, byteAt_xor_bit v hn]
    split
    next h => rw [h]
    next => rfl

/-- Only `0x00` and `0xFF` differ and have the same residue by 255, and they differ in every bit. -/
theorem xor_of_modEq {a b : Byte} (h : a.toNat ≡ b.toNat [MOD 255]) : a ^^^ b = 0x00 ∨ a ^^^ b = 0xFF := by
  have ha := a.isLt
  have hb := b.isLt
  rw [Nat.ModEq] at h
  obtain heq | ⟨ha0, hbF⟩ | ⟨haF, hb0⟩ : a.toNat = b.toNat ∨ (a.toNat = 0 ∧ b.toNat = 255) ∨
      (a.toNat = 255 ∧ b.toNat = 0) := by omega
  · obtain rfl := BitVec.eq_of_toNat_eq heq
    exact .inl BitVec.xor_self
  · obtain rfl : a = 0x00 := BitVec.eq_of_toNat_eq ha0
    obtain rfl : b = 0xFF := BitVec.eq_of_toNat_eq hbF
    exact .inr rfl
  · obtain rfl : a = 0xFF := BitVec.eq_of_toNat_eq haF
    obtain rfl : b = 0x00 := BitVec.eq_of_toNat_eq hb0
    exact .inr rfl

theorem not_modEq_xor_bit (a : Byte) {j : Nat} (hj : j < 8) :
    ¬ (a ^^^ (1#8 <<< j)).toNat ≡ a.toNat [MOD 255] := by
  intro h
  have hbit : ∀ j < 8, 1#8 <<< j ≠ 0x00#8 ∧ 1#8 <<< j ≠ 0xFF#8 := by decide
  have hxor := xor_of_modEq h
  rw [BitVec.xor_comm a, BitVec.xor_assoc, BitVec.xor_self, BitVec.xor_zero] at hxor
  exact hxor.elim (hbit j hj).1 (hbit j hj).2

/-- Replacing one checked byte of a packet replaces its summand in the fold. -/
theorem verifyFold_set {p : List Byte} (hp : p.length = 8) {m : Nat} (hm : 1 ≤ m) (hm7 : m ≤ 7) (b : Byte) :
    verifyFold hardware (p.set m b) = fold1 b (foldSeq hardware ((p.drop 1).eraseIdx (m - 1))) := by
  have hlen : m - 1 < (p.drop 1).length := by rw [List.length_drop]; omega
  rw [verifyFold_eq (by rw [List.length_set, hp]), List.drop_set, if_neg (by omega), foldSeq_set hlen]

/-- A flipped bit changes the residue of its byte (R167 (a)). -/
theorem verify_xor_bit {pk : ByteVec} {n : Nat} (hv : verify hardware (vecBytes pk) = true) (h8 : 8 ≤ n)
    (h64 : n < 64) : verify hardware (vecBytes (pk ^^^ (1#64 <<< n))) = false := by
  rw [Bool.eq_false_iff, ne_eq, verify_eq_true_iff, vecBytes_xor_bit pk h64]
  rw [verify_eq_true_iff] at hv
  have hi : n / 8 < (vecBytes pk).length := by rw [vecBytes_length]; omega
  have hset := verifyFold_set (vecBytes_length pk) (m := n / 8) (by omega) (by omega)
  have hsame : (vecBytes pk).set (n / 8) (byteAt pk (n / 8)) = vecBytes pk := by
    rw [← getElem_vecBytes pk hi, List.set_getElem_self]
  rw [← hsame, hset] at hv
  rw [hset, ← hv]
  exact fun h => not_modEq_xor_bit _ (Nat.mod_lt n (by decide)) (modEq_of_fold1_eq h)

/-- A non-zero byte that stays keeps the rest of the fold non-zero (R167 (c)). -/
theorem foldSeq_eraseIdx_ne_zero {p : List Byte} {m n : Nat} (hn : n < p.length) (hm : 1 ≤ m) (hn1 : 1 ≤ n)
    (hmn : m ≠ n) (hne : p[n] ≠ 0) : foldSeq hardware ((p.drop 1).eraseIdx (m - 1)) ≠ 0 := by
  rw [ne_eq, foldSeq_eq_zero_iff]
  intro h
  have hn' : n - 1 < (p.drop 1).length := by rw [List.length_drop]; omega
  have hget : (p.drop 1)[n - 1] = p[n] := by simp [Nat.sub_add_cancel hn1]
  exact hne (h _ (List.mem_eraseIdx_iff_getElem.2 ⟨n - 1, hn', by omega, hget⟩))

/-- Settles O53. -/
theorem verifyDetection : Obligations.VerifyDetection := by
  refine ⟨fun pk n => verify_xor_bit, fun pk pk' h => ?_, fun p m n hn hp hm hm7 hn1 hmn hne => ?_,
    fun p q hp hq hperm => ?_⟩
  · simp only [verify, verifyFold_eq (vecBytes_length _), h]
  · have hrest := foldSeq_eraseIdx_ne_zero hn hm hn1 hmn hne
    rw [verifyFold_set hp hm hm7, verifyFold_set hp hm hm7, fold1_comm, fold1_0xFF_of_ne_zero hrest, fold1_comm,
      fold1_zero]
  · simp only [verify, verifyFold_eq hp, verifyFold_eq hq, foldSeq_perm hperm]

end Sys2Proof.ChecksumFamily
end

section
/-! PROOFS. The packet codec family (43_sp_packet_codec.md R175 to R181): what `SP.ENCODE` and its two shorthands
build, what `SP.DECODE` extracts, and which built packets decode back. -/

namespace Sys2Proof.PacketFamily

open Sys2Proof.Machine Sys2Proof.ChecksumFamily

/-! ### Little-endian words (R10) -/

/-- Or-ing a byte in above the `n` low bits is appending it, at every width. -/
theorem setWidth_or_shiftLeft {n N : Nat} (lo : BitVec n) (hi : Byte) :
    lo.setWidth N ||| (hi.setWidth N <<< n) = (hi ++ lo).setWidth N := by
  apply BitVec.eq_of_getLsbD_eq
  intro i hN
  simp only [BitVec.getLsbD_or, BitVec.getLsbD_setWidth, BitVec.getLsbD_shiftLeft, BitVec.getLsbD_append, hN]
  by_cases h : i < n
  · simp [h]
  · have hsub : i - n < N := by omega
    simp [h, hsub, BitVec.getLsbD_of_ge lo i (by omega)]

/-- The last byte of a value is the highest one. -/
theorem unle32_eq_append (b0 b1 b2 b3 : Byte) : unle32 b0 b1 b2 b3 = b3 ++ b2 ++ b1 ++ b0 := by
  rw [unle32, setWidth_or_shiftLeft, setWidth_or_shiftLeft (n := 16), setWidth_or_shiftLeft (n := 24),
    BitVec.append_assoc, BitVec.append_assoc]
  rfl

/-- The four bytes of a value, low byte first, give it back. -/
theorem unle32_extract (v : Word) : unle32 (v.extractLsb' 0 8) (v.extractLsb' 8 8) (v.extractLsb' 16 8)
    (v.extractLsb' 24 8) = v := by
  rw [unle32_eq_append]
  simp (disch := decide) only [BitVec.extractLsb'_append_extractLsb'_eq_extractLsb', BitVec.extractLsb'_eq_self]

/-! ### What is built (R175 to R178) -/

/-- A checksum byte, the complement of a fold, by the sum of the bytes folded (R165 (d), R175). -/
theorem toNat_not_foldSeq (p : List Byte) : (~~~(foldSeq hardware p)).toNat = 255 - foldOfSum p := by
  rw [BitVec.toNat_not, toNat_foldSeq]

/-- Settles O54. -/
theorem spEncodeBuildsPacket : Obligations.SpEncodeBuildsPacket := by
  intro k y z s
  refine ⟨_, _, exec_spEncode k y z s, vecBytes_pack k y z, ?_⟩
  rw [vecBytes_pack]
  exact toNat_not_foldSeq (k :: packFields y z)

/-- `SP.ENCODE10` is `SP.ENCODE` of the data type (R177). -/
theorem exec_spEncode10 (y : Half) (z : Word) (s : State) :
    exec (.spEncode10 y z) s = exec (.spEncode 0x10 y z) s := rfl

theorem exec_spEmpty (s : State) : exec .spEmpty s =
    .next ⟨s.ctx, s.inputs, { rpk := 0xFF00000000000000#64, rlen := 8 } :: s.responses⟩ := rfl

/-- The fold of seven zero bytes is 0, so the empty packet closes with `0xFF` (R69). -/
theorem vecOfBytes_pack_zero : vecOfBytes (pack hardware 0 0 0) = 0xFF00000000000000#64 := rfl

/-- Settles O55. -/
theorem spShorthandsBuildPackets : Obligations.SpShorthandsBuildPackets := by
  intro y z s
  have hbuilt := exec_spEncode 0x10 y z s
  refine ⟨⟨_, (exec_spEncode10 y z s).trans hbuilt, hbuilt, byteAt_vecOfBytes_cons_zero _ _⟩,
    exec_spEmpty s, ?_⟩
  rw [exec_spEncode, exec_spEmpty, vecOfBytes_pack_zero]

/-! ### What is extracted (R179, R181) -/

/-- Bytes 0 to 6 of a packet as the fields of a response. -/
def fieldsOf (pk : ByteVec) : Response :=
  { rk := byteAt pk 0, ry := byteAt pk 2 ++ byteAt pk 1,
    rz := byteAt pk 6 ++ byteAt pk 5 ++ byteAt pk 4 ++ byteAt pk 3 }

theorem spDecode_of_verify {c : Config} {pk : ByteVec} (h : verify c (vecBytes pk) = true) :
    spDecode c pk = .ok (fieldsOf pk) := by
  rw [spDecode, if_neg (Bool.eq_false_iff.not_left.2 h), FrameCodecFamily.unle16_eq_append, unle32_eq_append, fieldsOf]

theorem spDecode_of_not_verify {c : Config} {pk : ByteVec} (h : ¬ verify c (vecBytes pk) = true) :
    spDecode c pk = .error .checksum :=
  if_pos (Bool.eq_false_iff.2 h)

/-- The verdict alone decides between the fields and the error (R179). -/
theorem exec_spDecode (pk : ByteVec) (s : State) : exec (.spDecode pk) s =
    .next ⟨s.ctx, s.inputs,
      (if verify hardware (vecBytes pk) = true then fieldsOf pk else { st := 2 }) :: s.responses⟩ := by
  split
  next h => exact QuantizerFamily.exec_of_result_ok rfl (spDecode_of_verify h)
  next h =>
    have hresult : EncodingFamily.result (.spDecode pk) s.ctx = .error .checksum := spDecode_of_not_verify h
    rw [EncodingFamily.exec_eq, hresult]
    rfl

theorem verify_vecBytes_iff (pk : ByteVec) :
    verify hardware (vecBytes pk) = true ↔ foldOfSum ((vecBytes pk).drop 1) = 255 := by
  rw [verify_eq_true_iff, verifyFold_eq (vecBytes_length pk), ← toNat_foldSeq, ← BitVec.toNat_inj]
  rfl

/-- Settles O56. -/
theorem spDecodeChecksThenExtracts : Obligations.SpDecodeChecksThenExtracts := by
  intro pk s
  rw [← verify_vecBytes_iff, exec_spDecode]
  refine ⟨fun h => ?_, fun h => ?_⟩
  · rw [if_pos h]
    rfl
  · rw [if_neg (mt (verify_vecBytes_iff pk).1 h)]

/-! ### Which built packets decode back (R180) -/

/-- A built packet holds the fields it was built from. -/
theorem fieldsOf_pack (type : Byte) (id : Half) (value : Word) :
    fieldsOf (vecOfBytes (pack hardware type id value)) = { rk := type, ry := id, rz := value } := by
  have hid := EncodingFamily.unle16_extract id
  have hvalue := unle32_extract value
  rw [fieldsOf, ← FrameCodecFamily.unle16_eq_append, ← unle32_eq_append]
  simp (disch := decide) only [byteAt_vecOfBytes]
  exact congrArg₂ (fun y z => ({ rk := type, ry := y, rz := z } : Response)) hid hvalue

/-- The check leaves the type byte out, so a built packet passes it where the type adds nothing to the fold (R166,
D22). -/
theorem verify_pack_iff (type : Byte) (id : Half) (value : Word) :
    verify hardware (pack hardware type id value) = true ↔
      type = 0x00 ∨ (type = 0xFF ∧ ¬ (id = 0 ∧ value = 0)) := by
  rw [verify_eq_true_iff]
  by_cases h0 : type = 0x00
  · subst h0
    exact iff_of_true (verifyFold_pack_0x00 id value) (.inl rfl)
  by_cases hFF : type = 0xFF
  · subst hFF
    by_cases hz : id = 0 ∧ value = 0
    · obtain ⟨rfl, rfl⟩ := hz
      decide
    · exact iff_of_true (verifyFold_pack_0xFF hz) (.inr ⟨rfl, hz⟩)
  · rw [verifyFold_pack_of_ne h0 hFF]
    exact iff_of_false (fun h => h0 (BitVec.not_inj.1 h)) (not_or.2 ⟨h0, fun ⟨h, _⟩ => hFF h⟩)

/-- Settles O57. -/
theorem spDecodeOfSpEncode : Obligations.SpDecodeOfSpEncode := by
  intro type id value s
  refine ⟨_, exec_spEncode type id value s, ?_, ?_⟩
  · rw [exec_spDecode, vecBytes_pack, fieldsOf_pack]
    simp only [verify_pack_iff]
    split <;> rfl
  · have hverify := verify_pack_of_verifyFirst_zero type id value
    rw [← vecBytes_pack] at hverify
    rw [spDecode_of_verify hverify, fieldsOf_pack]

end Sys2Proof.PacketFamily
end

section
/-! PROOFS. The exceptions family (60_exceptions.md R200 to R218, with the reset of R230): which status an operation
returns, what an error leaves of the response and of the state, and the two steps that run no operation. -/

namespace Sys2Proof.ExceptionFamily

open Sys2Proof.Machine Sys2Proof.EncodingFamily Sys2Proof.FrameCodecFamily

/-! ### The steps without a request (R217, R230) -/

/-- Settles O7: the two inputs on which a step runs no operation. -/
theorem stepIdlesAndResets : Obligations.StepIdlesAndResets := ⟨fun _ _ => rfl, fun _ _ _ => rfl⟩

/-! ### The status of an operation (R206, R218) -/

/-- `exists_row_of_result_error` for any row that names the operation. -/
theorem raises_of_result_error {i : Instr} {c : Context} {e : Error} (h : result i c = .error e) {row : OpRow}
    (hrow : row ∈ opTable) (hop : row.op = (encode i).op) : row.raises = some e := by
  obtain ⟨row', hrow', hop', hraises⟩ := exists_row_of_result_error h
  rwa [opTable_row_unique hrow hrow' (hop.trans hop'.symm)]

/-- Settles O17: a status other than `OK` is the code of an error that the operation raised. -/
theorem statusIsOkOrTheRowsError : Obligations.StatusIsOkOrTheRowsError := by
  intro i s row hrow hop
  refine ⟨_, _, exec_eq i s, rfl, or_iff_not_imp_left.2 fun hst => ?_⟩
  obtain ⟨e, hres, hcode⟩ := exists_error_of_st_ne_zero hst
  exact ⟨e, raises_of_result_error hres hrow hop, hcode⟩

/-! ### The effects of an error (R201, R205) -/

/-- The deframer reports a framing error only with the context cleared (R136). -/
theorem dFeed_fst_of_framingError {c : Context} {b : Byte} (h : (dFeed hardware c b).2 = .framingError) :
    (dFeed hardware c b).1 = Context.clear := by
  obtain ⟨-, -, hfeed⟩ | ⟨-, -, hfeed⟩ | ⟨-, -, hevent⟩ := dFeed_event_cases c b
  · rw [hfeed]
  · rw [hfeed]
  · cases h.symm.trans hevent

theorem eventResult_eq_framing {ev : Event} (h : eventResult ev = .error .framing) : ev = .framingError := by
  cases ev with
  | framingError => rfl
  | _ => cases h

/-- What an error leaves of the context: a framing error, which `DF.FEED` alone raises, clears it, and no other error
writes it. -/
theorem contextAfter_error_cases {i : Instr} {c : Context} {e : Error} (h : result i c = .error e) :
    (e ≠ .framing ∧ StateFamily.contextAfter i c = c) ∨
    (e = .framing ∧ (∃ k, i = .dfFeed k) ∧ StateFamily.contextAfter i c = Context.clear) := by
  by_cases he : e = .framing
  · subst he
    obtain ⟨k, rfl⟩ := eq_dfFeed_of_result_framing h
    exact .inr ⟨rfl, ⟨k, rfl⟩, dFeed_fst_of_framingError (eventResult_eq_framing h)⟩
  · exact .inl ⟨he, contextAfter_of_result_error h he⟩

/-- Settles O16: the response of a raised error is its status, and the context is left or, by a framing error,
cleared. -/
theorem errorsChangeNothingElse : Obligations.ErrorsChangeNothingElse := by
  intro i s t rsp hexec hrsp hst
  obtain rfl := exec_response hexec hrsp
  cases hexec.symm.trans (exec_eq i s)
  obtain ⟨e, hres, -⟩ := exists_error_of_st_ne_zero hst
  rw [hres]
  refine ⟨rfl, rfl, ?_⟩
  obtain ⟨-, hctx⟩ | ⟨rfl, ⟨k, hi⟩, hctx⟩ := contextAfter_error_cases hres
  · exact .inl hctx
  · exact .inr ⟨k, hi, rfl, hctx⟩

end Sys2Proof.ExceptionFamily
end

section
/-! PROOFS. The reset and hazards family (70_reset_and_hazards.md R240): under the host's duty on ids and counts, the
masking of R116 loses nothing of them. -/

namespace Sys2Proof.HazardFamily

open Sys2Proof.Machine Sys2Proof.EncodingFamily

/-! ### A response of status `OK` (R205) -/

theorem error_st_ne_zero (e : Error) : (Response.error e).st ≠ 0 := by cases e <;> decide

/-- A new response of status `OK` is the operation's result: an error would show its code. -/
theorem result_of_response_ok {i : Instr} {s t : State} {rsp : Response} (hexec : exec i s = .next t)
    (hrsp : t.responses = rsp :: s.responses) (hst : rsp.st = 0) : result i s.ctx = .ok rsp := by
  have hanswer := exec_response hexec hrsp
  cases hres : result i s.ctx with
  | ok r => rw [hanswer, hres, answer_ok]
  | error e =>
    rw [hanswer, hres, answer_error] at hst
    exact absurd hst (error_st_ne_zero e)

/-! ### The host's duty (R240) -/

section
variable {k k2 : Byte} {fa fb : Word} {r : Response}

theorem meetsHostDuties_vqCellD_iff : Instr.meetsHostDuties (.vqCellD k fa) = true ↔ k.toNat ≤ 15 :=
  decide_eq_true_iff

theorem meetsHostDuties_vqCellSp_iff :
    Instr.meetsHostDuties (.vqCellSp k k2 fa fb) = true ↔ k.toNat ≤ 15 ∧ k2.toNat ≤ 15 := by
  simp only [Instr.meetsHostDuties, Bool.and_eq_true, decide_eq_true_eq]

/-! ### The id and the count in a packed result (R80, R81) -/

/-- A scaled voltage is a number of at most 4095 (R117). -/
theorem exists_eq_ofNat_of_scaled (v : BitVec 12) : ∃ n ≤ 4095, v = BitVec.ofNat 12 n :=
  ⟨v.toNat, Nat.le_of_lt_succ v.isLt, by simp⟩

/-- An accepted `VQ.CELLD` packs some scaled voltage (R115). -/
theorem vqCellD_ok_packed (h : vqCellD hardware k fa = .ok r) :
    ∃ n ≤ 4095, r = cellDResult hardware k (BitVec.ofNat 12 n) := by
  simp only [vqCellD] at h
  split at h <;> cases h
  next v _ =>
    obtain ⟨n, hn, rfl⟩ := exists_eq_ofNat_of_scaled v
    exact ⟨n, hn, rfl⟩

/-- An accepted `VQ.CELLSP` packs some two scaled voltages (R118). -/
theorem vqCellSp_ok_packed (h : vqCellSp hardware k k2 fa fb = .ok r) : ∃ n1 ≤ 4095, ∃ n2 ≤ 4095,
    r = { rz := cellSpWord hardware k k2 (BitVec.ofNat 12 n1) (BitVec.ofNat 12 n2) } := by
  simp only [vqCellSp] at h
  split at h
  · cases h
  next v1 _ =>
    split at h <;> cases h
    next v2 _ =>
      obtain ⟨n1, hn1, rfl⟩ := exists_eq_ofNat_of_scaled v1
      obtain ⟨n2, hn2, rfl⟩ := exists_eq_ofNat_of_scaled v2
      exact ⟨n1, hn1, n2, hn2, rfl⟩

/-- The high nibble of byte1 is the id, masked (R80, R116). -/
theorem vqCellD_ok_id (h : vqCellD hardware k fa = .ok r) : r.rk.toNat / 16 = k.toNat % 16 := by
  obtain ⟨n, hn, rfl⟩ := vqCellD_ok_packed h
  change (cellByte1 hardware k (BitVec.ofNat 12 n)).toNat / 16 = k.toNat % 16
  rw [QuantizerFamily.toNat_cellByte1 hn]
  omega

/-- The two low nibbles of the word are the id and the count, masked (R81, R116; the places are log 6). -/
theorem vqCellSp_ok_id_count (h : vqCellSp hardware k k2 fa fb = .ok r) :
    r.rz.toNat % 16 = k.toNat % 16 ∧ r.rz.toNat / 16 % 16 = k2.toNat % 16 := by
  obtain ⟨n1, hn1, n2, hn2, rfl⟩ := vqCellSp_ok_packed h
  rw [QuantizerFamily.cellSpWord_eq hn1 hn2, BitVec.toNat_ofNat]
  omega

end

/-- Settles O35: the packed nibbles are the id and the count masked, and the mask keeps a number of at most 15. -/
theorem cellIdWithinDutyComesThrough : Obligations.CellIdWithinDutyComesThrough := by
  intro k k2 fa fb s t rsp hst hrsp
  refine ⟨fun hduty hexec => ?_, fun hduty hexec => ?_⟩
  · have hid := vqCellD_ok_id (result_of_response_ok hexec hrsp hst)
    have hk := meetsHostDuties_vqCellD_iff.1 hduty
    omega
  · obtain ⟨hid, hcount⟩ := vqCellSp_ok_id_count (result_of_response_ok hexec hrsp hst)
    obtain ⟨hk, hk2⟩ := meetsHostDuties_vqCellSp_iff.1 hduty
    omega

end Sys2Proof.HazardFamily
end
